-- ==== Sys2Proof/Word.lean ====
section
/-!
DEFINITION. The word types of SCCA CORE: bytes, register numbers and the PC (spec/00_scope.md R5, R8;
spec/10_state.md R20, R26).
-/

namespace Sys2Proof

/-- A byte: an unsigned value 0..255 (R8). Registers, memory cells, operands and FL are bytes (R5). -/
abbrev Byte := BitVec 8

/-- The number of one of the NREG = 8 general registers r0..r7 (R5, R20). -/
abbrev RegIdx := Fin 8

/-- A value of the PC: PC_WIDTH = 8 bits for MEM_SIZE = 255 (R26). -/
abbrev PcWord := BitVec 8

/-- r7 is the stack pointer SP (R22). -/
abbrev spIdx : RegIdx := 7

end Sys2Proof
end

