-- ==== Sys2Proof/Syntax.lean ====
section
/-!
DEFINITION. The 22 instructions of spec/30_encoding.md R72, one constructor for each row of
spec/opcode_table.json. An operand is a whole byte (R70): `a` is the byte at pc+1, `b` the byte at pc+2 (R11).
A register operand byte may hold any value: 8..255 is no register and raises OutOfRangeAccess when the
instruction runs (R24, R93), so such terms are instructions, though not well formed (WellFormed.lean).
-/

namespace Sys2Proof

/-- The mnemonics of R72, in its order. -/
inductive Mnemonic where
  | hlt | ret | push | pop | prn | call | jmp | jeq | jne | not | ldi
  | add | sub | mul | div | mod | cmp | and | or | xor | shl | shr
  deriving DecidableEq, Repr

/-- The formats of R71. -/
inductive Format where
  /-- no operand -/
  | n
  /-- one register -/
  | r
  /-- two registers -/
  | rr
  /-- a register and an immediate -/
  | ri
  deriving DecidableEq, Repr

/-- An instruction with its operand bytes. -/
inductive Instr where
  /-- HLT: halt (R112). -/
  | hlt
  /-- RET: return from subroutine (R131). -/
  | ret
  /-- PUSH rA (R120). -/
  | push (a : Byte)
  /-- POP rA (R121). -/
  | pop (a : Byte)
  /-- PRN rA: print register (R111). -/
  | prn (a : Byte)
  /-- CALL rA: call subroutine (R130). -/
  | call (a : Byte)
  /-- JMP rA (R132). -/
  | jmp (a : Byte)
  /-- JEQ rA: jump if equal (R133). -/
  | jeq (a : Byte)
  /-- JNE rA: jump if not equal (R134). -/
  | jne (a : Byte)
  /-- NOT rA (R153). -/
  | not (a : Byte)
  /-- LDI rA, imm: load immediate (R110). -/
  | ldi (a imm : Byte)
  /-- ADD rA, rB (R141). -/
  | add (a b : Byte)
  /-- SUB rA, rB (R142). -/
  | sub (a b : Byte)
  /-- MUL rA, rB (R143). -/
  | mul (a b : Byte)
  /-- DIV rA, rB (R144). -/
  | div (a b : Byte)
  /-- MOD rA, rB (R145). -/
  | mod (a b : Byte)
  /-- CMP rA, rB (R160). -/
  | cmp (a b : Byte)
  /-- AND rA, rB (R150). -/
  | and (a b : Byte)
  /-- OR rA, rB (R151). -/
  | or (a b : Byte)
  /-- XOR rA, rB (R152). -/
  | xor (a b : Byte)
  /-- SHL rA, rB: logical shift left (R154). -/
  | shl (a b : Byte)
  /-- SHR rA, rB: logical shift right (R155). -/
  | shr (a b : Byte)
  deriving DecidableEq, Repr

/-- The register operand bytes an instruction names, in the order R93 checks them: `a`, then `b`.
The immediate of LDI is none. -/
def Instr.regOperands : Instr → List Byte
  | .hlt | .ret => []
  | .push a | .pop a | .prn a | .call a | .jmp a | .jeq a | .jne a | .not a | .ldi a _ => [a]
  | .add a b | .sub a b | .mul a b | .div a b | .mod a b | .cmp a b
  | .and a b | .or a b | .xor a b | .shl a b | .shr a b => [a, b]

end Sys2Proof
end

