-- ==== Sys2Proof/WellFormed.lean ====
section
/-!
DEFINITION. Well-formed instructions: every register operand byte selects one of r0..r7 (spec/10_state.md R24,
spec/30_encoding.md R78). An instruction that is not well formed still has a meaning: it takes the
OutOfRangeAccess fault of R93.
-/

namespace Sys2Proof

/-- The byte selects a register: it is 0..7 (R24). -/
def Byte.isReg (r : Byte) : Bool := decide (r.toNat < 8)

/-- Every register operand of the instruction selects a register. -/
def Instr.wf (i : Instr) : Bool := i.regOperands.all Byte.isReg

end Sys2Proof
end

