-- ==== Sys2Proof/Decode.lean ====
section
/-!
DEFINITION. Decoding and encoding (spec/30_encoding.md R70 to R77, spec/40_cycle.md R92). The opcode values are
parameter OPCODE_MAP, kept in the one table `opcodeMap` (R6, R72); no rule but this table depends on a number.
-/

namespace Sys2Proof

/-- An assignment of opcode bytes to mnemonics: the parameter OPCODE_MAP (R6). -/
abbrev OpcodeMap := Mnemonic → Byte

/-- The value of OPCODE_MAP for this hardware, the table of R72. UNVERIFIED: the values are the spec's from
general knowledge (G1, notes/assumptions/1.md). -/
def opcodeMap : OpcodeMap
  | .hlt  => 0b00000001
  | .ret  => 0b00010001
  | .push => 0b01000101
  | .pop  => 0b01000110
  | .prn  => 0b01000111
  | .call => 0b01010000
  | .jmp  => 0b01010100
  | .jeq  => 0b01010101
  | .jne  => 0b01010110
  | .not  => 0b01101001
  | .ldi  => 0b10000010
  | .add  => 0b10100000
  | .sub  => 0b10100001
  | .mul  => 0b10100010
  | .div  => 0b10100011
  | .mod  => 0b10100100
  | .cmp  => 0b10100111
  | .and  => 0b10101000
  | .or   => 0b10101010
  | .xor  => 0b10101011
  | .shl  => 0b10101100
  | .shr  => 0b10101101

/-- The format of each mnemonic, the table of R71. -/
def Mnemonic.format : Mnemonic → Format
  | .hlt | .ret => .n
  | .prn | .push | .pop | .call | .jmp | .jeq | .jne | .not => .r
  | .add | .sub | .mul | .div | .mod | .and | .or | .xor | .shl | .shr | .cmp => .rr
  | .ldi => .ri

/-- The length in bytes of each format (R71). -/
def Format.length : Format → Nat
  | .n => 1
  | .r => 2
  | .rr | .ri => 3

/-- All mnemonics, in the order of R72. -/
def Mnemonic.all : List Mnemonic :=
  [.hlt, .ret, .push, .pop, .prn, .call, .jmp, .jeq, .jne, .not, .ldi,
   .add, .sub, .mul, .div, .mod, .cmp, .and, .or, .xor, .shl, .shr]

/-- Decode of the opcode byte: a comparison of all 8 bits with each value of the map (R74). -/
def decodeOpcode (map : OpcodeMap) (op : Byte) : Option Mnemonic :=
  Mnemonic.all.find? fun m => map m == op

/-- The instruction of a mnemonic and the two potential operand bytes; a byte the format does not include
is ignored (R70, R77). -/
def Mnemonic.instr (m : Mnemonic) (a b : Byte) : Instr :=
  match m with
  | .hlt => .hlt
  | .ret => .ret
  | .push => .push a
  | .pop => .pop a
  | .prn => .prn a
  | .call => .call a
  | .jmp => .jmp a
  | .jeq => .jeq a
  | .jne => .jne a
  | .not => .not a
  | .ldi => .ldi a b
  | .add => .add a b
  | .sub => .sub a b
  | .mul => .mul a b
  | .div => .div a b
  | .mod => .mod a b
  | .cmp => .cmp a b
  | .and => .and a b
  | .or => .or a b
  | .xor => .xor a b
  | .shl => .shl a b
  | .shr => .shr a b

/-- Why bytes are no instruction. -/
inductive DecodeError where
  /-- The opcode byte is none of the 22 of R72; the step then raises UnknownOpcode (R76, R92). -/
  | unknownOpcode (op : Byte)
  /-- A byte list ends before the instruction does. Only `decodeBytes` says it: a fetch window always holds
  three bytes (R91). -/
  | truncated
  deriving DecidableEq, Repr

/-- Decode of a fetch window under any opcode map (R6, R92). -/
def decodeWith (map : OpcodeMap) (op a b : Byte) : Except DecodeError Instr :=
  match decodeOpcode map op with
  | some m => .ok (m.instr a b)
  | none => .error (.unknownOpcode op)

/-- Decode of the fetch window op, a, b (R92). -/
def decode (op a b : Byte) : Except DecodeError Instr := decodeWith opcodeMap op a b

/-- The mnemonic of an instruction. -/
def Instr.mnemonic : Instr → Mnemonic
  | .hlt => .hlt
  | .ret => .ret
  | .push _ => .push
  | .pop _ => .pop
  | .prn _ => .prn
  | .call _ => .call
  | .jmp _ => .jmp
  | .jeq _ => .jeq
  | .jne _ => .jne
  | .not _ => .not
  | .ldi _ _ => .ldi
  | .add _ _ => .add
  | .sub _ _ => .sub
  | .mul _ _ => .mul
  | .div _ _ => .div
  | .mod _ _ => .mod
  | .cmp _ _ => .cmp
  | .and _ _ => .and
  | .or _ _ => .or
  | .xor _ _ => .xor
  | .shl _ _ => .shl
  | .shr _ _ => .shr

/-- The length of an instruction in bytes (R71). -/
def Instr.length (i : Instr) : Nat := i.mnemonic.format.length

/-- The byte of a list at an index, 0 past its end. -/
def byteAt (bytes : List Byte) (k : Nat) : Byte := bytes.getD k 0

/-- Decode of the first instruction of a byte list, with the bytes after it: as many as the opcode's length
says (R71, R74). -/
def decodeBytes (bytes : List Byte) : Except DecodeError (Instr × List Byte) :=
  match bytes with
  | [] => .error .truncated
  | op :: rest =>
    match decode op (byteAt rest 0) (byteAt rest 1) with
    | .error e => .error e
    | .ok i => if i.length ≤ bytes.length then .ok (i, bytes.drop i.length) else .error .truncated

/-- The bytes of an instruction: the opcode, then its operands in the order of R70. -/
def encode (i : Instr) : List Byte :=
  opcodeMap i.mnemonic ::
    match i with
    | .hlt | .ret => []
    | .push a | .pop a | .prn a | .call a | .jmp a | .jeq a | .jne a | .not a => [a]
    | .ldi a b | .add a b | .sub a b | .mul a b | .div a b | .mod a b | .cmp a b
    | .and a b | .or a b | .xor a b | .shl a b | .shr a b => [a, b]

/-- Byte `k` of the table word `w` of `nbits` bits: bits 8k+7..8k, zero at and above `nbits`. The first byte
of an instruction, at the lowest address, holds bits 7..0 (R70, R71). -/
def tableByte (nbits w k : Nat) : Byte := BitVec.ofNat 8 ((w % 2 ^ nbits) / 2 ^ (8 * k))

/-- The instruction the decoder reads from a word numbered as spec/opcode_table.json numbers it. -/
def decodeTableWord (nbits w : Nat) : Option Instr :=
  match decode (tableByte nbits w 0) (tableByte nbits w 1) (tableByte nbits w 2) with
  | .ok i => some i
  | .error _ => none

end Sys2Proof
end

