-- ==== Sys2Proof/Config.lean ====
section
/-!
DEFINITION. What an implementation of SCCA CORE fixes (spec/00_scope.md section 4): the kinds of its
parameters. The values this hardware takes stand in Machine/Params.lean, but SP_RESET, which R22 fixes, is here.
The spec leaves no value open, so there is no free value.
-/

namespace Sys2Proof

/-- The two results the spec allows for a shift by 8 or more, parameter SHIFT_GE8 (R7, I1). -/
inductive ShiftGe8 where
  /-- the result is 0 -/
  | zero
  /-- the shift amount is taken modulo 8 -/
  | mask
  deriving DecidableEq, Repr

/-- SP_RESET, the value of r7 after reset (R22, R36). -/
def Config.spReset : Byte := 0xF4

end Sys2Proof
end

