-- ==== Sys2Proof/Machine/Params.lean ====
section
/-!
DEFINITION. The values this hardware gives its parameters (spec/00_scope.md section 4).
-/

namespace Sys2Proof.Machine

/-- MEM_SIZE: memory has the cells 0..254 (R4, R50). UNVERIFIED, notes/assumptions/2.md. -/
def memSize : Nat := 255

/-- SHIFT_GE8: a shift by 8 or more gives 0 (R7, C8). UNVERIFIED, notes/assumptions/3.md. -/
def shiftGe8 : ShiftGe8 := .zero

end Sys2Proof.Machine
end

