-- ==== Sys2Proof/Machine/State.lean ====
section
/-!
DEFINITION. The state of SCCA CORE (spec/10_state.md R20 to R34), its reset value (R36) and the reasons a run can
stop outside the state.
-/

namespace Sys2Proof.Machine

/-- The register file: one bank of eight 8-bit registers (R20). r5 (IM) and r6 (IS) are ordinary storage (R23);
r7 is SP (R22). -/
structure RegFile where
  r0 : Byte
  r1 : Byte
  r2 : Byte
  r3 : Byte
  r4 : Byte
  r5 : Byte
  r6 : Byte
  r7 : Byte
  deriving DecidableEq, Repr

/-- The status word's six values (R31). The codes 6 and 7 are never produced, so there is no constructor for
them (DEDUCED, safe, notes/assumptions/19.md). -/
inductive Status where
  | running
  | halt
  | faultUnknownOpcode
  | faultOutOfRange
  | faultDivideByZero
  | faultModuloByZero
  deriving DecidableEq, Repr

/-- Memory: (address, byte) pairs in the canonical form `Memory.wf` (Ops.lean); an unlisted address reads as
0x00, what R35 and R36 give a cell nothing has written. -/
abbrev Memory := List Host.Cell

/-- The whole architectural state (R34: there is no other). -/
structure State where
  /-- r0..r7 (R20). -/
  regs : RegFile
  /-- The PC (R25, R26). -/
  pc : PcWord
  /-- The flags register FL: bit 0 E, bit 1 G, bit 2 L (R27). -/
  fl : Byte
  /-- The memory array (R50). -/
  mem : Memory
  /-- The halted flag (R30). -/
  halted : Bool
  /-- The status word (R31). -/
  status : Status
  /-- fault_pc of the fault record (R32). -/
  faultPc : PcWord
  /-- fault_space of the fault record: 1 for a register index, else 0 (R32). -/
  faultSpace : BitVec 1
  /-- fault_value of the fault record (R32). -/
  faultValue : BitVec 9
  /-- The output stream, oldest byte first (R33). -/
  output : List Byte
  deriving DecidableEq, Repr

/-- Why the host's boot sequence stops before the core runs. No step of the core ends in one: the core's own
faults (R170 to R178) are transitions the spec describes, hence next states (notes/assumptions/4.md). -/
inductive Fault where
  /-- The program image is longer than memory or holds a literal outside 0..255 (R56, R175). Raised by `boot`
  alone. Safe: the core never runs. -/
  | loadError
  deriving DecidableEq, Repr

/-- What has no meaning in the model. -/
inductive Refusal where
  /-- An instruction without a meaning yet, raised by an arm of `exec`. Safe. No arm raises it: every
  instruction has its meaning. -/
  | notModelled (mnemonic : String)
  /-- A clock edge before the first edge with rst = 1, where the spec leaves state and behaviour unspecified
  (R193, I7). Raised by `powerOn` alone. Safe. -/
  | beforeFirstReset
  deriving DecidableEq, Repr

/-- The outcome of a step. -/
abbrev Result := Host.Outcome State Fault Refusal

/-- The machine right after reset (R36, R190). -/
def State.reset : State where
  regs := ⟨0x00, 0x00, 0x00, 0x00, 0x00, 0x00, 0x00, Config.spReset⟩
  pc := 0
  fl := 0x00
  mem := []
  halted := false
  status := .running
  faultPc := 0
  faultSpace := 0
  faultValue := 0
  output := []

end Sys2Proof.Machine
end

