-- ==== Sys2Proof/Machine/Ops.lean ====
section
/-!
DEFINITION. The named operations on registers, memory, output and run state (spec/00_scope.md R9), and the one
fault entry (spec/60_exceptions.md R172, R177). There is no return from a fault (R181), so no operation for one.
-/

namespace Sys2Proof.Machine

/-! ### Registers -/

/-- x[i] (R9, R20). -/
def RegFile.get (f : RegFile) (i : RegIdx) : Byte :=
  match i with
  | 0 => f.r0
  | 1 => f.r1
  | 2 => f.r2
  | 3 => f.r3
  | 4 => f.r4
  | 5 => f.r5
  | 6 => f.r6
  | 7 => f.r7

/-- x[i] <- v: no register is hardwired and no write is refused (R21). -/
def RegFile.set (f : RegFile) (i : RegIdx) (v : Byte) : RegFile :=
  match i with
  | 0 => { f with r0 := v }
  | 1 => { f with r1 := v }
  | 2 => { f with r2 := v }
  | 3 => { f with r3 := v }
  | 4 => { f with r4 := v }
  | 5 => { f with r5 := v }
  | 6 => { f with r6 := v }
  | 7 => { f with r7 := v }

/-- x[i] in a state. -/
def State.reg (s : State) (i : RegIdx) : Byte := s.regs.get i

/-- x[i] <- v in a state. -/
def State.setReg (s : State) (i : RegIdx) (v : Byte) : State := { s with regs := s.regs.set i v }

/-- The stack pointer SP = x[7] (R22). -/
def State.sp (s : State) : Byte := s.reg spIdx

/-- SP <- v. -/
def State.setSp (s : State) (v : Byte) : State := s.setReg spIdx v

/-! ### PC, FL, output, halt -/

/-- pc <- target (R9). -/
def State.setPc (s : State) (target : PcWord) : State := { s with pc := target }

/-- pc <- pc + n: the default advance of R96. The PC has 8 bits; the sum is exact whenever the fetch at pc
succeeded, since then pc + 2 <= 254 (R26, notes/assumptions/5.md). -/
def State.advance (s : State) (n : Nat) : State := s.setPc (s.pc + BitVec.ofNat 8 n)

/-- FL <- v (R9). -/
def State.setFl (s : State) (v : Byte) : State := { s with fl := v }

/-- Output(v): append v to the output stream (R33, R111). -/
def State.emit (s : State) (v : Byte) : State := { s with output := s.output ++ [v] }

/-- The memory array becomes `m`. -/
def State.setMem (s : State) (m : Memory) : State := { s with mem := m }

/-- Halt(): halted <- 1, status <- HALT; the fault record stays (R112). -/
def State.halt (s : State) : State := { s with halted := true, status := .halt }

/-! ### Memory -/

/-- What an unlisted address reads as: the reset content of every cell (R35, R36). -/
def unlisted : Byte := 0x00

/-- The byte at an address. -/
def Memory.read : Memory → Nat → Byte
  | [], _ => unlisted
  | (k, w) :: rest, a => if k = a then w else Memory.read rest a

/-- The memory with no entry at an address: the address reads as unlisted. -/
def Memory.erase : Memory → Nat → Memory
  | [], _ => []
  | (k, w) :: rest, a => if k = a then Memory.erase rest a else (k, w) :: Memory.erase rest a

/-- The memory with an entry put in before the first greater address. -/
def Memory.insert : Memory → Nat → Byte → Memory
  | [], a, v => [(a, v)]
  | (k, w) :: rest, a, v => if a < k then (a, v) :: (k, w) :: rest else (k, w) :: Memory.insert rest a v

/-- The memory with byte `v` at an address, in canonical form again: no entry where `v` is what an unlisted address
reads as. -/
def Memory.write (m : Memory) (a : Nat) (v : Byte) : Memory :=
  if v = unlisted then m.erase a else (m.erase a).insert a v

/-- The canonical form from address `lo` on: addresses strictly rising from at least `lo`, all below MEM_SIZE
(R50), no entry that an unlisted address would read the same. -/
def Memory.wfFrom (lo : Nat) : Memory → Bool
  | [] => true
  | (k, w) :: rest =>
    decide (lo ≤ k) && decide (k < memSize) && decide (w ≠ unlisted) && Memory.wfFrom (k + 1) rest

/-- The canonical form of memory. -/
def Memory.wf (m : Memory) : Bool := Memory.wfFrom 0 m

/-! ### Faults -/

/-- A fault with its information: the F(info) of `raise F(info)` (R172, R176). -/
inductive Raise where
  | unknownOpcode (op : Byte)
  | outOfRangeMemory (addr : Nat)
  | outOfRangeRegister (index : Byte)
  | divideByZero
  | moduloByZero
  deriving DecidableEq, Repr

/-- The status code of a fault (R172). -/
def Raise.status : Raise → Status
  | .unknownOpcode _ => .faultUnknownOpcode
  | .outOfRangeMemory _ => .faultOutOfRange
  | .outOfRangeRegister _ => .faultOutOfRange
  | .divideByZero => .faultDivideByZero
  | .moduloByZero => .faultModuloByZero

/-- fault_space of a fault (R172). -/
def Raise.space : Raise → BitVec 1
  | .outOfRangeRegister _ => 1
  | .unknownOpcode _ | .outOfRangeMemory _ | .divideByZero | .moduloByZero => 0

/-- fault_value of a fault (R172): nine bits hold every address a fetch can form (R32). -/
def Raise.value : Raise → BitVec 9
  | .unknownOpcode op => op.setWidth 9
  | .outOfRangeMemory addr => BitVec.ofNat 9 addr
  | .outOfRangeRegister index => index.setWidth 9
  | .divideByZero => 0
  | .moduloByZero => 0

/-- Fault entry (R177): the halted flag, the status and the fault record are written, nothing else changes. -/
def State.enterFault (s : State) (f : Raise) : State :=
  { s with
    halted := true
    status := f.status
    faultPc := s.pc
    faultSpace := f.space
    faultValue := f.value }

/-- The end of a step that began in `s`: its effects are committed (R95), or, when it raised, all are discarded
and the fault is entered (R98, R176). -/
def commit (s : State) (r : Except Raise State) : Result :=
  match r with
  | .ok t => .next t
  | .error f => .next (s.enterFault f)

/-! ### Checked memory accesses -/

/-- MemRead(addr, 1) (R9, R52). -/
def memRead (s : State) (addr : Nat) : Except Raise Byte :=
  if addr < memSize then .ok (s.mem.read addr) else .error (.outOfRangeMemory addr)

/-- MemWrite(addr, 1, v) (R9, R52). -/
def memWrite (s : State) (addr : Nat) (v : Byte) : Except Raise State :=
  if addr < memSize then .ok (s.setMem (s.mem.write addr v)) else .error (.outOfRangeMemory addr)

end Sys2Proof.Machine
end

