-- ==== Sys2Proof/Machine/Operands.lean ====
section
/-!
DEFINITION. The operand forms (spec/30_encoding.md R75): a register operand byte, checked (spec/10_state.md R24,
spec/40_cycle.md R93), and the immediate of LDI, which is the byte itself and needs no operation. The stack forms
are in Stack.lean's pushByte and popByte.
-/

namespace Sys2Proof.Machine

/-- The register a register operand byte selects; 8..255 raise OutOfRangeAccess with the index (R24, R173). -/
def regIndex (r : Byte) : Except Raise RegIdx :=
  if h : r.toNat < 8 then .ok ⟨r.toNat, h⟩ else .error (.outOfRangeRegister r)

end Sys2Proof.Machine
end

