-- ==== Sys2Proof/Machine/Alu.lean ====
section
/-!
DEFINITION. The ALU: pure functions of the operand values on unsigned bytes (spec/44_alu_arith.md R140), and the two
shapes an ALU instruction has, format RR and format R.
-/

namespace Sys2Proof.Machine

/-- (x + y) mod 256 (R141). -/
def aluAdd (x y : Byte) : Byte := x + y

/-- (x - y) mod 256 (R142). -/
def aluSub (x y : Byte) : Byte := x - y

/-- (x * y) mod 256 (R143). -/
def aluMul (x y : Byte) : Byte := x * y

/-- x div y, DivideByZero for y = 0 (R144). -/
def aluDiv (x y : Byte) : Except Raise Byte := if y = 0 then .error .divideByZero else .ok (x / y)

/-- x mod y, ModuloByZero for y = 0 (R145). -/
def aluMod (x y : Byte) : Except Raise Byte := if y = 0 then .error .moduloByZero else .ok (x % y)

/-- x & y (R150). -/
def aluAnd (x y : Byte) : Byte := x &&& y

/-- Bitwise x or y (R151). -/
def aluOr (x y : Byte) : Byte := x ||| y

/-- x ^ y (R152). -/
def aluXor (x y : Byte) : Byte := x ^^^ y

/-- The 8-bit complement (R153). -/
def aluNot (x : Byte) : Byte := ~~~x

/-- The distance a shift by `n` moves, or none where the result is 0 (R7, R154, R155). -/
def shiftAmount (mode : ShiftGe8) (n : Byte) : Option Nat :=
  match mode with
  | .zero => if n.toNat < 8 then some n.toNat else none
  | .mask => some (n.toNat % 8)

/-- Logical shift left; bits out of bit 7 are lost (R154). -/
def aluShl (mode : ShiftGe8) (x n : Byte) : Byte :=
  match shiftAmount mode n with
  | some k => x <<< k
  | none => 0

/-- Logical shift right; zeros enter at bit 7 (R155). -/
def aluShr (mode : ShiftGe8) (x n : Byte) : Byte :=
  match shiftAmount mode n with
  | some k => x >>> k
  | none => 0

/-- rA <- rA op rB: `a` is checked before `b` (R93), both operands are read before the result is written (R146),
the PC advances by 3 (R96). -/
def aluRR (f : Byte → Byte → Except Raise Byte) (a b : Byte) (s : State) : Result :=
  commit s do
    let i ← regIndex a
    let j ← regIndex b
    let v ← f (s.reg i) (s.reg j)
    return (s.setReg i v).advance 3

/-- rA <- op rA: the PC advances by 2 (R96). -/
def aluR (f : Byte → Byte) (a : Byte) (s : State) : Result :=
  commit s do
    let i ← regIndex a
    return (s.setReg i (f (s.reg i))).advance 2

end Sys2Proof.Machine
end

