-- ==== Sys2Proof/Machine/Arith.lean ====
section
/-!
DEFINITION. ADD, SUB, MUL, DIV and MOD (spec/44_alu_arith.md). None writes FL (R140).
-/

namespace Sys2Proof.Machine

/-- ADD rA, rB (R141). -/
def execAdd (a b : Byte) (s : State) : Result := aluRR (fun x y => .ok (aluAdd x y)) a b s

/-- SUB rA, rB (R142). -/
def execSub (a b : Byte) (s : State) : Result := aluRR (fun x y => .ok (aluSub x y)) a b s

/-- MUL rA, rB (R143). -/
def execMul (a b : Byte) (s : State) : Result := aluRR (fun x y => .ok (aluMul x y)) a b s

/-- DIV rA, rB (R144). -/
def execDiv (a b : Byte) (s : State) : Result := aluRR aluDiv a b s

/-- MOD rA, rB (R145). -/
def execMod (a b : Byte) (s : State) : Result := aluRR aluMod a b s

end Sys2Proof.Machine
end

