-- ==== Sys2Proof/Machine/Flags.lean ====
section
/-!
DEFINITION. The flags register FL (spec/10_state.md R27 to R29). CMP is the only instruction that writes it and
JEQ, JNE the only ones that read it (R28); no other flag computation exists.
-/

namespace Sys2Proof.Machine

/-- Bit E of FL (R27). -/
def flagE (fl : Byte) : Bool := fl.getLsbD 0

/-- Bit G of FL (R27); no instruction reads it. -/
def flagG (fl : Byte) : Bool := fl.getLsbD 1

/-- Bit L of FL (R27); no instruction reads it. -/
def flagL (fl : Byte) : Bool := fl.getLsbD 2

/-- The FL that CMP writes, all 8 bits of it: an unsigned comparison (R29, R160). -/
def compareFlags (x y : Byte) : Byte :=
  if x = y then 0b00000001
  else if y < x then 0b00000010
  else 0b00000100

end Sys2Proof.Machine
end

