-- ==== Sys2Proof/Machine/Compare.lean ====
section
/-!
DEFINITION. CMP (spec/46_compare.md).
-/

namespace Sys2Proof.Machine

/-- CMP rA, rB (R160): writes all of FL, changes no register. -/
def execCmp (a b : Byte) (s : State) : Result :=
  commit s do
    let i ← regIndex a
    let j ← regIndex b
    return (s.setFl (compareFlags (s.reg i) (s.reg j))).advance 3

end Sys2Proof.Machine
end

