-- ==== Sys2Proof/Machine/Stack.lean ====
section
/-!
DEFINITION. The full descending stack through SP = r7 (spec/42_stack.md): the two SP-indirect forms, shared with CALL
and RET (R122), and PUSH and POP.
-/

namespace Sys2Proof.Machine

/-- SP <- (SP - 1) mod 256; MemWrite(SP, 1, v), where `v` is read after the decrement (R10, R120, R130). -/
def pushByte (s : State) (v : State → Byte) : Except Raise State :=
  let s1 := s.setSp (s.sp - 1)
  memWrite s1 s1.sp.toNat (v s1)

/-- MemRead(SP, 1), the byte a pop reads (R121, R131). -/
def popRead (s : State) : Except Raise Byte := memRead s s.sp.toNat

/-- SP <- (SP + 1) mod 256, after a pop's other write (R121, R131). -/
def popAdjust (s : State) : State := s.setSp (s.sp + 1)

/-- PUSH rA (R120): PUSH r7 stores the decremented SP (D5). -/
def execPush (a : Byte) (s : State) : Result :=
  commit s do
    let i ← regIndex a
    let t ← pushByte s fun u => u.reg i
    return t.advance 2

/-- POP rA (R121): POP r7 leaves the popped byte plus one in r7 (D5). -/
def execPop (a : Byte) (s : State) : Result :=
  commit s do
    let i ← regIndex a
    let v ← popRead s
    return (popAdjust (s.setReg i v)).advance 2

end Sys2Proof.Machine
end

