-- ==== Sys2Proof/Machine/ControlFlow.lean ====
section
/-!
DEFINITION. CALL, RET, JMP, JEQ and JNE (spec/43_control_flow.md). None receives the default advance (R97); a target
at or above MEM_SIZE is held in the PC and faults at the next fetch (R55).
-/

namespace Sys2Proof.Machine

/-- CALL rA (R130): pushes pc + 2, then jumps to x[a], read after the decrement (D5). -/
def execCall (a : Byte) (s : State) : Result :=
  commit s do
    let i ← regIndex a
    let t ← pushByte s fun u => u.pc + 2
    return t.setPc (t.reg i)

/-- RET (R131). -/
def execRet (s : State) : Result :=
  commit s do
    let v ← popRead s
    return popAdjust (s.setPc v)

/-- JMP rA (R132). -/
def execJmp (a : Byte) (s : State) : Result :=
  commit s do
    let i ← regIndex a
    return s.setPc (s.reg i)

/-- JEQ rA (R133): `a` is checked whether or not the jump is taken (R93). -/
def execJeq (a : Byte) (s : State) : Result :=
  commit s do
    let i ← regIndex a
    return if flagE s.fl then s.setPc (s.reg i) else s.advance 2

/-- JNE rA (R134): `a` is checked whether or not the jump is taken (R93). -/
def execJne (a : Byte) (s : State) : Result :=
  commit s do
    let i ← regIndex a
    return if flagE s.fl then s.advance 2 else s.setPc (s.reg i)

end Sys2Proof.Machine
end

