-- ==== Sys2Proof/Machine/LoadPrintHalt.lean ====
section
/-!
DEFINITION. LDI, PRN and HLT (spec/41_ldi_prn_hlt.md).
-/

namespace Sys2Proof.Machine

/-- HLT (R112): the PC keeps the address of the HLT (R97, C2). -/
def execHlt (s : State) : Result := commit s (.ok s.halt)

/-- LDI rA, imm (R110): x[a] <- imm. -/
def execLdi (a imm : Byte) (s : State) : Result :=
  commit s do
    let i ← regIndex a
    return (s.setReg i imm).advance 3

/-- PRN rA (R111): Output(x[a]). -/
def execPrn (a : Byte) (s : State) : Result :=
  commit s do
    let i ← regIndex a
    return (s.emit (s.reg i)).advance 2

end Sys2Proof.Machine
end

