-- ==== Sys2Proof/Machine/Logic.lean ====
section
/-!
DEFINITION. AND, OR, XOR, NOT, SHL and SHR (spec/45_alu_logic.md). None writes FL.
-/

namespace Sys2Proof.Machine

/-- AND rA, rB (R150). -/
def execAnd (a b : Byte) (s : State) : Result := aluRR (fun x y => .ok (aluAnd x y)) a b s

/-- OR rA, rB (R151). -/
def execOr (a b : Byte) (s : State) : Result := aluRR (fun x y => .ok (aluOr x y)) a b s

/-- XOR rA, rB (R152). -/
def execXor (a b : Byte) (s : State) : Result := aluRR (fun x y => .ok (aluXor x y)) a b s

/-- NOT rA (R153). -/
def execNot (a : Byte) (s : State) : Result := aluR aluNot a s

/-- SHL rA, rB (R154). -/
def execShl (a b : Byte) (s : State) : Result := aluRR (fun x y => .ok (aluShl shiftGe8 x y)) a b s

/-- SHR rA, rB (R155). -/
def execShr (a b : Byte) (s : State) : Result := aluRR (fun x y => .ok (aluShr shiftGe8 x y)) a b s

end Sys2Proof.Machine
end

