-- ==== Sys2Proof/Machine/Fetch.lean ====
section
/-!
DEFINITION. Fetch and decode (spec/40_cycle.md R91, R92), and placing bytes where the fetch reads them.
-/

namespace Sys2Proof.Machine

/-- Fetch and decode (R91, R92): three reads at pc, pc+1 and pc+2, exact sums, in this order, whatever the
instruction; then the opcode is decoded. -/
def fetchDecode (s : State) : Except Raise Instr := do
  let op ← memRead s s.pc.toNat
  let a ← memRead s (s.pc.toNat + 1)
  let b ← memRead s (s.pc.toNat + 2)
  match decode op a b with
  | .ok i => return i
  | .error _ => throw (.unknownOpcode op)

/-- The cell at an address takes a byte from outside the core; an address that does not exist is ignored (R42). -/
def pokeCell (m : Memory) (addr : Nat) (v : Byte) : Memory :=
  if addr < memSize then m.write addr v else m

/-- The window at pc holds the three bytes. -/
def placeWindow (s : State) (op a b : Byte) : State :=
  s.setMem (pokeCell (pokeCell (pokeCell s.mem s.pc.toNat op) (s.pc.toNat + 1) a) (s.pc.toNat + 2) b)

end Sys2Proof.Machine
end

