-- ==== Sys2Proof/Machine/Step.lean ====
section
/-!
DEFINITION. The step (spec/40_cycle.md R90, R100): one rising clock edge with rst = 0.
-/

namespace Sys2Proof.Machine

/-- One step: while halted nothing changes (R99); a fault of fetch or decode enters Halted (R98); else the decoded
instruction runs. -/
def step (s : State) : Host.Outcome State Fault Refusal :=
  if s.halted then .next s
  else
    match fetchDecode s with
    | .error f => .next (s.enterFault f)
    | .ok i => exec i s

/-- `s` with the instruction of a table word in the fetch window at pc, operand bytes above `nbits` zero. It stands
for the host's load of a program (R42, R56, notes/assumptions/8.md). -/
def State.withFetchWord (s : State) (nbits w : Nat) : State :=
  placeWindow s (tableByte nbits w 0) (tableByte nbits w 1) (tableByte nbits w 2)

end Sys2Proof.Machine
end

