-- ==== Sys2Proof/Machine/Ports.lean ====
section
/-!
DEFINITION. The ports and the host's part of a run (spec/10_state.md R40 to R46, spec/70_reset_and_hazards.md R190 to
R194): reset, the load port, the output port, the observation port, boot.
-/

namespace Sys2Proof.Machine

/-- The 3-bit status word the status port shows (R31, R44). -/
def Status.code : Status → BitVec 3
  | .running => 0
  | .halt => 1
  | .faultUnknownOpcode => 2
  | .faultOutOfRange => 3
  | .faultDivideByZero => 4
  | .faultModuloByZero => 5

/-- The input pins at a rising clock edge, but for the observation port's (R40). -/
structure Pins where
  rst : Bool
  loadWe : Bool
  loadAddr : Byte
  loadData : Byte
  deriving DecidableEq, Repr

/-- Pins of a core that runs: rst = 0, no load. -/
def Pins.run : Pins := ⟨false, false, 0, 0⟩

/-- Pins that hold reset and load nothing. -/
def Pins.hold : Pins := ⟨true, false, 0, 0⟩

/-- Pins that hold reset and write one byte through the load port (R42). -/
def Pins.load (addr data : Byte) : Pins := ⟨true, true, addr, data⟩

/-- The load port (R42): a write at or above MEM_SIZE is ignored. -/
def loadPort (p : Pins) (m : Memory) : Memory :=
  if p.loadWe then pokeCell m p.loadAddr.toNat p.loadData else m

/-- An edge with rst = 1 (R190): every register takes its reset value. The first such edge after rst was 0 clears
memory; on later ones the load port alone changes it (R42). `rstBefore` is the level of rst at the edge before
(notes/assumptions/6.md). -/
def resetEdge (rstBefore : Bool) (p : Pins) (s : State) : State :=
  { State.reset with mem := if rstBefore then loadPort p s.mem else State.reset.mem }

/-- A rising clock edge (R41): a reset edge, or a step; load_we is ignored while rst = 0. -/
def clockEdge (rstBefore : Bool) (p : Pins) (s : State) : Result :=
  if p.rst then .next (resetEdge rstBefore p s) else step s

/-- A sequence of clock edges. -/
def clockRun (rstBefore : Bool) (ps : List Pins) (s : State) : Result :=
  match ps with
  | [] => .next s
  | p :: rest =>
    match clockEdge rstBefore p s with
    | .next t => clockRun p.rst rest t
    | .fault f => .fault f
    | .refused r => .refused r

/-- The edges from power-on. Before the first edge with rst = 1 the spec leaves state and behaviour unspecified
(R193), so there the run is refused; that edge leaves the reset state whatever was before (R190). -/
def powerOn (ps : List Pins) : Result :=
  match ps with
  | [] => .refused .beforeFirstReset
  | p :: rest => if p.rst then clockRun true rest State.reset else .refused .beforeFirstReset

/-- The output port in the cycle that the core begins in state `s` under pins `p` (R43): out_data where
out_valid = 1, none where out_valid = 0. -/
def outPort (p : Pins) (s : State) : Option Byte :=
  if p.rst || s.halted then none
  else
    match step s with
    | .next t => (t.output.drop s.output.length).head?
    | .fault _ => none
    | .refused _ => none

/-- The observation port (R40, R45): dbg_data for dbg_sel and dbg_addr, zero-extended; a memory read at or above
MEM_SIZE gives 0. -/
def observe (s : State) (sel : BitVec 2) (addr : Byte) : BitVec 9 :=
  if sel = 0 then (if addr.toNat < memSize then (s.mem.read addr.toNat).setWidth 9 else 0)
  else if sel = 1 then (s.reg ⟨addr.toNat % 8, Nat.mod_lt _ (by decide)⟩).setWidth 9
  else if sel = 2 then s.pc.setWidth 9
  else s.fl.setWidth 9

/-- The load edges of an image, from address `k` on, one byte an edge (R194). -/
def loadEdges (k : Nat) : List Nat → List Pins
  | [] => []
  | v :: rest => Pins.load (BitVec.ofNat 8 k) (BitVec.ofNat 8 v) :: loadEdges (k + 1) rest

/-- A valid image: at most MEM_SIZE literals, each 0..255 (R56). -/
def validImage (image : List Nat) : Bool :=
  decide (image.length ≤ memSize) && image.all fun v => decide (v < 256)

/-- The boot sequence of R194 up to the release of rst: a reset edge, the load edges, then the check. A bad image is
the host's LoadError and the core never runs (R175). -/
def boot (image : List Nat) : Result :=
  if validImage image then powerOn (Pins.hold :: loadEdges 0 image) else .fault .loadError

end Sys2Proof.Machine
end

