-- ==== Sys2Proof/Safety.lean ====
section
/-!
DEFINITION. The terms claims are stated in: when a step fetches an instruction, what a step leaves unchanged, the
invariant of the machine, and the fault a step must report by spec/60_exceptions.md R178.
-/

namespace Sys2Proof.Machine

/-! ### Fetching -/

/-- All three addresses of the fetch window exist (R91): pc <= 252 for MEM_SIZE = 255. -/
abbrev State.fetchable (s : State) : Prop := s.pc.toNat + 2 < memSize

/-- The core runs and its fetch window is op, a, b (R91). -/
structure State.Fetches (s : State) (op a b : Byte) : Prop where
  running : s.halted = false
  inRange : s.fetchable
  opcode : s.mem.read s.pc.toNat = op
  first : s.mem.read (s.pc.toNat + 1) = a
  second : s.mem.read (s.pc.toNat + 2) = b

/-! ### Frames -/

/-- Every register outside `dst` is unchanged. -/
def RegsKept (dst : List RegIdx) (s t : State) : Prop := ∀ k, k ∉ dst → t.reg k = s.reg k

/-- Every byte of memory outside `addrs` is unchanged. -/
def MemKept (addrs : List Nat) (s t : State) : Prop :=
  ∀ x, x ∉ addrs → t.mem.read x = s.mem.read x

/-- The halted flag, the status and the fault record are unchanged. -/
structure RunKept (s t : State) : Prop where
  halted : t.halted = s.halted
  status : t.status = s.status
  faultPc : t.faultPc = s.faultPc
  faultSpace : t.faultSpace = s.faultSpace
  faultValue : t.faultValue = s.faultValue

/-- Nothing but the registers `dst`, the bytes at `addrs` and the PC may change. -/
structure Confined (dst : List RegIdx) (addrs : List Nat) (s t : State) : Prop where
  regs : RegsKept dst s t
  mem : MemKept addrs s t
  fl : t.fl = s.fl
  output : t.output = s.output
  run : RunKept s t

/-- The default advance of R96: the PC goes on by exactly `n` whenever the fetch at pc succeeds, which every step's
does before it executes. (From a PC where it does not, exec alone would be outside a step: notes/assumptions/5.md.) -/
def PcAdvanced (n : Nat) (s t : State) : Prop := s.fetchable → t.pc.toNat = s.pc.toNat + n

/-- `t` is `s` after the entry of a fault with this status, space and value (R177). -/
def State.faulted (s : State) (status : Status) (space : BitVec 1) (value : BitVec 9) : State :=
  { s with
    halted := true
    status := status
    faultPc := s.pc
    faultSpace := space
    faultValue := value }

/-! ### The invariant -/

/-- The opcode bytes of the formats of R71, with the values of R72. -/
def opcodesN : List Byte := [0x01, 0x11]
/-- Format R. -/
def opcodesR : List Byte := [0x45, 0x46, 0x47, 0x50, 0x54, 0x55, 0x56, 0x69]
/-- Format RI. -/
def opcodesRI : List Byte := [0x82]
/-- Format RR. -/
def opcodesRR : List Byte := [0xA0, 0xA1, 0xA2, 0xA3, 0xA4, 0xA7, 0xA8, 0xAA, 0xAB, 0xAC, 0xAD]
/-- The 22 opcodes of R72; the other 234 bytes are unknown opcodes (R76). -/
def opcodes : List Byte := opcodesN ++ opcodesR ++ opcodesRI ++ opcodesRR

/-- The fault record that goes with a status (R32, R172). For MEM_SIZE = 255 a memory fault always reports address
255: it is the only address outside memory that SP, pc or the first missing byte of a window can be. -/
def recordFits (status : Status) (space : BitVec 1) (value : BitVec 9) : Prop :=
  match status with
  | .running | .halt | .faultDivideByZero | .faultModuloByZero => space = 0 ∧ value = 0
  | .faultUnknownOpcode => space = 0 ∧ value.toNat < 256 ∧ value.setWidth 8 ∉ opcodes
  | .faultOutOfRange =>
    (space = 0 ∧ value.toNat = memSize) ∨ (space = 1 ∧ 8 ≤ value.toNat ∧ value.toNat < 256)

/-- What every step keeps. -/
structure State.Inv (s : State) : Prop where
  /-- Memory is in canonical form (R50). -/
  memory : s.mem.wf = true
  /-- FL holds one of 0x00, 0x01, 0x02, 0x04 (R29). -/
  flags : s.fl = 0 ∨ s.fl = 1 ∨ s.fl = 2 ∨ s.fl = 4
  /-- status = 0 exactly when halted = 0 (R31). -/
  status : s.status = .running ↔ s.halted = false
  /-- The record fits the status; it is 0 while running and after HLT (R32). -/
  record : recordFits s.status s.faultSpace s.faultValue
  /-- fault_pc is 0 while running and after HLT (R32). -/
  noFaultPc : s.status = .running ∨ s.status = .halt → s.faultPc = 0
  /-- After a fault the PC holds the address of the faulting instruction (R177). -/
  faultPc : s.status ≠ .running → s.status ≠ .halt → s.faultPc = s.pc

/-! ### The fault a step must report -/

/-- The fault of a running core's step by the priority order of R178, with its row of R172, or none: written on the
bytes of the window and the state before the step, with no use of the decoder or of a meaning. -/
def priorityFault (s : State) : Option (Status × BitVec 1 × BitVec 9) :=
  let pc := s.pc.toNat
  let op := s.mem.read pc
  let a := s.mem.read (pc + 1)
  let b := s.mem.read (pc + 2)
  let divisor := s.reg ⟨b.toNat % 8, Nat.mod_lt _ (by decide)⟩
  if memSize ≤ pc then some (.faultOutOfRange, 0, BitVec.ofNat 9 pc)
  else if memSize ≤ pc + 1 then some (.faultOutOfRange, 0, BitVec.ofNat 9 (pc + 1))
  else if memSize ≤ pc + 2 then some (.faultOutOfRange, 0, BitVec.ofNat 9 (pc + 2))
  else if op ∉ opcodes then some (.faultUnknownOpcode, 0, op.setWidth 9)
  else if op ∉ opcodesN ∧ 8 ≤ a.toNat then some (.faultOutOfRange, 1, a.setWidth 9)
  else if op ∈ opcodesRR ∧ 8 ≤ b.toNat then some (.faultOutOfRange, 1, b.setWidth 9)
  else if op = 0xA3 ∧ divisor = 0 then some (.faultDivideByZero, 0, 0)
  else if op = 0xA4 ∧ divisor = 0 then some (.faultModuloByZero, 0, 0)
  else if (op = 0x45 ∨ op = 0x50) ∧ memSize ≤ (s.sp - 1).toNat then
    some (.faultOutOfRange, 0, (s.sp - 1).setWidth 9)
  else if (op = 0x46 ∨ op = 0x11) ∧ memSize ≤ s.sp.toNat then
    some (.faultOutOfRange, 0, s.sp.setWidth 9)
  else none

end Sys2Proof.Machine
end

