-- ==== Sys2Proof/Certificates/Slice0/Obligations.lean ====
section
/-!
DEFINITION. The statements for the provers, each from numbered rules of spec/. In a statement about an instruction the
first conjunct is its encoding, the rest its effect and its frame; `a.toNat = i.val` says that operand byte `a` selects
register `i` (R24). Operand bytes that select none are RegisterOperandsAreCheckedInOrder's.
-/

open Sys2Proof Sys2Proof.Machine

/-! ### LDI, PRN, HLT -/

/-- R110. The frame names the destination alone; the immediate has no bound. -/
def Obligations.LdiLoadsTheImmediate : Prop :=
  ∀ (a imm : Byte) (i : RegIdx) (s : State), a.toNat = i.val →
    decode 0x82 a imm = .ok (.ldi a imm) ∧
    ∃ t, exec (.ldi a imm) s = .next t ∧
      t.reg i = imm ∧ Confined [i] [] s t ∧ PcAdvanced 3 s t

/-- R111. The byte is appended to the output stream and shown on the output port in the cycle of the commit. -/
def Obligations.PrnEmitsTheRegister : Prop :=
  ∀ (a : Byte) (i : RegIdx) (s : State), a.toNat = i.val →
    (∀ b, decode 0x47 a b = .ok (.prn a)) ∧
    (∃ t, exec (.prn a) s = .next t ∧
      t.output = s.output ++ [s.reg i] ∧
      RegsKept [] s t ∧ MemKept [] s t ∧ t.fl = s.fl ∧ RunKept s t ∧ PcAdvanced 2 s t) ∧
    ∀ b p, s.Fetches 0x47 a b → p.rst = false → outPort p s = some (s.reg i)

/-- R112. The PC and the fault record stay, the record at 0 in every state that meets the invariant, whatever the
two bytes after the opcode are; the step after it changes nothing. At the last two addresses of memory the fetch of
any instruction faults with address MEM_SIZE, the HLT's too. -/
def Obligations.HltHaltsAtItsOwnAddress : Prop :=
  (∀ a b, decode 0x01 a b = .ok .hlt) ∧
  (∀ s : State,
    ∃ t, exec .hlt s = .next t ∧ t = { s with halted := true, status := .halt } ∧ step t = .next t ∧
      (s.Inv → s.halted = false → t.faultPc = 0 ∧ t.faultSpace = 0 ∧ t.faultValue = 0) ∧
      ∀ a b, s.Fetches 0x01 a b → step s = .next t) ∧
  ∀ s : State, s.halted = false → s.pc.toNat + 2 = memSize ∨ s.pc.toNat + 1 = memSize →
    step s = .next (s.faulted .faultOutOfRange 0 (BitVec.ofNat 9 memSize))

/-! ### PUSH, POP -/

/-- R120 (the decisions D4, D5 among it). The address stored to is the decremented SP; PUSH r7 stores the decremented
SP. When that address does not exist nothing is written and the fault is entered. -/
def Obligations.PushStoresBelowTheStackPointer : Prop :=
  ∀ (a : Byte) (i : RegIdx) (s : State), a.toNat = i.val →
    (∀ b, decode 0x45 a b = .ok (.push a)) ∧
    ((s.sp - 1).toNat < memSize →
      ∃ t, exec (.push a) s = .next t ∧
        t.sp.toNat = (s.sp.toNat + 255) % 256 ∧
        t.mem.read (s.sp - 1).toNat = (if i = 7 then s.sp - 1 else s.reg i) ∧
        Confined [7] [(s.sp - 1).toNat] s t ∧ PcAdvanced 2 s t) ∧
    (memSize ≤ (s.sp - 1).toNat →
      exec (.push a) s = .next (s.faulted .faultOutOfRange 0 (BitVec.ofNat 9 (s.sp - 1).toNat)))

/-- R121 (D4, D5). POP r7 ends with the popped byte plus one. The cell read is not cleared. -/
def Obligations.PopLoadsFromTheStackPointer : Prop :=
  ∀ (a : Byte) (i : RegIdx) (s : State), a.toNat = i.val →
    (∀ b, decode 0x46 a b = .ok (.pop a)) ∧
    (s.sp.toNat < memSize →
      ∃ t, exec (.pop a) s = .next t ∧
        (i ≠ 7 → t.reg i = s.mem.read s.sp.toNat ∧ t.sp.toNat = (s.sp.toNat + 1) % 256) ∧
        (i = 7 → t.sp.toNat = ((s.mem.read s.sp.toNat).toNat + 1) % 256) ∧
        Confined [i, 7] [] s t ∧ PcAdvanced 2 s t) ∧
    (memSize ≤ s.sp.toNat →
      exec (.pop a) s = .next (s.faulted .faultOutOfRange 0 (BitVec.ofNat 9 s.sp.toNat)))

/-! ### CALL, RET, JMP, JEQ, JNE -/

/-- R130 (D4, D5). The return address pc + 2 is pushed, exact whenever the fetch at pc succeeds; CALL r7 jumps to the
decremented SP. -/
def Obligations.CallPushesTheReturnAddressAndJumps : Prop :=
  ∀ (a : Byte) (i : RegIdx) (s : State), a.toNat = i.val →
    (∀ b, decode 0x50 a b = .ok (.call a)) ∧
    ((s.sp - 1).toNat < memSize →
      ∃ t, exec (.call a) s = .next t ∧
        t.sp.toNat = (s.sp.toNat + 255) % 256 ∧
        (s.fetchable → (t.mem.read (s.sp - 1).toNat).toNat = s.pc.toNat + 2) ∧
        t.pc = (if i = 7 then s.sp - 1 else s.reg i) ∧
        Confined [7] [(s.sp - 1).toNat] s t) ∧
    (memSize ≤ (s.sp - 1).toNat →
      exec (.call a) s = .next (s.faulted .faultOutOfRange 0 (BitVec.ofNat 9 (s.sp - 1).toNat)))

/-- R131 (D4). -/
def Obligations.RetJumpsToThePoppedByte : Prop :=
  (∀ a b, decode 0x11 a b = .ok .ret) ∧
  ∀ s : State,
    (s.sp.toNat < memSize →
      ∃ t, exec .ret s = .next t ∧
        t.pc = s.mem.read s.sp.toNat ∧ t.sp.toNat = (s.sp.toNat + 1) % 256 ∧
        Confined [7] [] s t) ∧
    (memSize ≤ s.sp.toNat →
      exec .ret s = .next (s.faulted .faultOutOfRange 0 (BitVec.ofNat 9 s.sp.toNat)))

/-- R132. -/
def Obligations.JmpSetsThePc : Prop :=
  ∀ (a : Byte) (i : RegIdx) (s : State), a.toNat = i.val →
    (∀ b, decode 0x54 a b = .ok (.jmp a)) ∧
    ∃ t, exec (.jmp a) s = .next t ∧ t.pc = s.reg i ∧ Confined [] [] s t

/-- R133. Bit 0 of FL alone decides. -/
def Obligations.JeqJumpsWhenEqual : Prop :=
  ∀ (a : Byte) (i : RegIdx) (s : State), a.toNat = i.val →
    (∀ b, decode 0x55 a b = .ok (.jeq a)) ∧
    ∃ t, exec (.jeq a) s = .next t ∧
      (s.fl.toNat % 2 = 1 → t.pc = s.reg i) ∧
      (s.fl.toNat % 2 = 0 → PcAdvanced 2 s t) ∧ Confined [] [] s t

/-- R134. Bit 0 of FL alone decides. -/
def Obligations.JneJumpsWhenNotEqual : Prop :=
  ∀ (a : Byte) (i : RegIdx) (s : State), a.toNat = i.val →
    (∀ b, decode 0x56 a b = .ok (.jne a)) ∧
    ∃ t, exec (.jne a) s = .next t ∧
      (s.fl.toNat % 2 = 0 → t.pc = s.reg i) ∧
      (s.fl.toNat % 2 = 1 → PcAdvanced 2 s t) ∧ Confined [] [] s t

/-! ### ADD, SUB, MUL, DIV, MOD -/

/-- R141. -/
def Obligations.AddWritesTheSumModulo256 : Prop :=
  ∀ (a b : Byte) (i j : RegIdx) (s : State), a.toNat = i.val → b.toNat = j.val →
    decode 0xA0 a b = .ok (.add a b) ∧
    ∃ t, exec (.add a b) s = .next t ∧
      (t.reg i).toNat = ((s.reg i).toNat + (s.reg j).toNat) % 256 ∧
      Confined [i] [] s t ∧ PcAdvanced 3 s t

/-- R142. The difference is taken in the integers. -/
def Obligations.SubWritesTheDifferenceModulo256 : Prop :=
  ∀ (a b : Byte) (i j : RegIdx) (s : State), a.toNat = i.val → b.toNat = j.val →
    decode 0xA1 a b = .ok (.sub a b) ∧
    ∃ t, exec (.sub a b) s = .next t ∧
      ((t.reg i).toNat : Int) = (((s.reg i).toNat : Int) - (s.reg j).toNat) % 256 ∧
      Confined [i] [] s t ∧ PcAdvanced 3 s t

/-- R143. -/
def Obligations.MulWritesTheLowByteOfTheProduct : Prop :=
  ∀ (a b : Byte) (i j : RegIdx) (s : State), a.toNat = i.val → b.toNat = j.val →
    decode 0xA2 a b = .ok (.mul a b) ∧
    ∃ t, exec (.mul a b) s = .next t ∧
      (t.reg i).toNat = (s.reg i).toNat * (s.reg j).toNat % 256 ∧
      Confined [i] [] s t ∧ PcAdvanced 3 s t

/-- R144 (D9). -/
def Obligations.DivWritesTheQuotientOrFaults : Prop :=
  ∀ (a b : Byte) (i j : RegIdx) (s : State), a.toNat = i.val → b.toNat = j.val →
    decode 0xA3 a b = .ok (.div a b) ∧
    (s.reg j ≠ 0 →
      ∃ t, exec (.div a b) s = .next t ∧
        (t.reg i).toNat = (s.reg i).toNat / (s.reg j).toNat ∧
        Confined [i] [] s t ∧ PcAdvanced 3 s t) ∧
    (s.reg j = 0 → exec (.div a b) s = .next (s.faulted .faultDivideByZero 0 0))

/-- R145. The remainder is the one of the quotient rounded down. -/
def Obligations.ModWritesTheRemainderOrFaults : Prop :=
  ∀ (a b : Byte) (i j : RegIdx) (s : State), a.toNat = i.val → b.toNat = j.val →
    decode 0xA4 a b = .ok (.mod a b) ∧
    (s.reg j ≠ 0 →
      ∃ t, exec (.mod a b) s = .next t ∧
        (t.reg i).toNat =
          (s.reg i).toNat - (s.reg j).toNat * ((s.reg i).toNat / (s.reg j).toNat) ∧
        Confined [i] [] s t ∧ PcAdvanced 3 s t) ∧
    (s.reg j = 0 → exec (.mod a b) s = .next (s.faulted .faultModuloByZero 0 0))

/-! ### AND, OR, XOR, NOT, SHL, SHR -/

/-- R150. -/
def Obligations.AndIsBitwise : Prop :=
  ∀ (a b : Byte) (i j : RegIdx) (s : State), a.toNat = i.val → b.toNat = j.val →
    decode 0xA8 a b = .ok (.and a b) ∧
    ∃ t, exec (.and a b) s = .next t ∧
      (∀ k < 8, (t.reg i).getLsbD k = ((s.reg i).getLsbD k && (s.reg j).getLsbD k)) ∧
      Confined [i] [] s t ∧ PcAdvanced 3 s t

/-- R151. -/
def Obligations.OrIsBitwise : Prop :=
  ∀ (a b : Byte) (i j : RegIdx) (s : State), a.toNat = i.val → b.toNat = j.val →
    decode 0xAA a b = .ok (.or a b) ∧
    ∃ t, exec (.or a b) s = .next t ∧
      (∀ k < 8, (t.reg i).getLsbD k = ((s.reg i).getLsbD k || (s.reg j).getLsbD k)) ∧
      Confined [i] [] s t ∧ PcAdvanced 3 s t

/-- R152. -/
def Obligations.XorIsBitwise : Prop :=
  ∀ (a b : Byte) (i j : RegIdx) (s : State), a.toNat = i.val → b.toNat = j.val →
    decode 0xAB a b = .ok (.xor a b) ∧
    ∃ t, exec (.xor a b) s = .next t ∧
      (∀ k < 8, (t.reg i).getLsbD k = ((s.reg i).getLsbD k != (s.reg j).getLsbD k)) ∧
      Confined [i] [] s t ∧ PcAdvanced 3 s t

/-- R153. -/
def Obligations.NotComplementsTheByte : Prop :=
  ∀ (a : Byte) (i : RegIdx) (s : State), a.toNat = i.val →
    (∀ b, decode 0x69 a b = .ok (.not a)) ∧
    ∃ t, exec (.not a) s = .next t ∧
      (t.reg i).toNat = 255 - (s.reg i).toNat ∧
      Confined [i] [] s t ∧ PcAdvanced 2 s t

/-- R154 with SHIFT_GE8 = ZERO, the decision D8. -/
def Obligations.ShlShiftsLeftAndGivesZeroFromEightOn : Prop :=
  ∀ (a b : Byte) (i j : RegIdx) (s : State), a.toNat = i.val → b.toNat = j.val →
    decode 0xAC a b = .ok (.shl a b) ∧
    ∃ t, exec (.shl a b) s = .next t ∧
      (t.reg i).toNat =
        (if 8 ≤ (s.reg j).toNat then 0 else (s.reg i).toNat * 2 ^ (s.reg j).toNat % 256) ∧
      Confined [i] [] s t ∧ PcAdvanced 3 s t

/-- R155 with SHIFT_GE8 = ZERO, the decision D8: zeros enter at bit 7. -/
def Obligations.ShrShiftsRightAndGivesZeroFromEightOn : Prop :=
  ∀ (a b : Byte) (i j : RegIdx) (s : State), a.toNat = i.val → b.toNat = j.val →
    decode 0xAD a b = .ok (.shr a b) ∧
    ∃ t, exec (.shr a b) s = .next t ∧
      (t.reg i).toNat =
        (if 8 ≤ (s.reg j).toNat then 0 else (s.reg i).toNat / 2 ^ (s.reg j).toNat) ∧
      Confined [i] [] s t ∧ PcAdvanced 3 s t

/-- R7: both values of the parameter SHIFT_GE8, and that ZERO is this hardware's. -/
def Obligations.ShiftParameterDecidesFromEightOn : Prop :=
  shiftGe8 = .zero ∧ ∀ x n : Byte,
    (8 ≤ n.toNat → aluShl .zero x n = 0 ∧ aluShr .zero x n = 0) ∧
    (aluShl .mask x n).toNat = x.toNat * 2 ^ (n.toNat % 8) % 256 ∧
    (aluShr .mask x n).toNat = x.toNat / 2 ^ (n.toNat % 8)

/-! ### CMP -/

/-- R160 (D10). All of FL is written; no register and no byte of memory changes. -/
def Obligations.CmpWritesTheFlags : Prop :=
  ∀ (a b : Byte) (i j : RegIdx) (s : State), a.toNat = i.val → b.toNat = j.val →
    decode 0xA7 a b = .ok (.cmp a b) ∧
    ∃ t, exec (.cmp a b) s = .next t ∧
      t.fl = (if (s.reg i).toNat = (s.reg j).toNat then 0b00000001
        else if (s.reg i).toNat > (s.reg j).toNat then 0b00000010 else 0b00000100) ∧
      RegsKept [] s t ∧ MemKept [] s t ∧ t.output = s.output ∧ RunKept s t ∧ PcAdvanced 3 s t

/-! ### Encoding -/

/-- Words written out from the examples of the instruction rules. -/
def Obligations.DecodingReadsTheSpecsExamples : Prop :=
  decode 0x82 0x03 0x2A = .ok (.ldi 3 42) ∧ decode 0x47 0x00 0x01 = .ok (.prn 0) ∧
  decode 0x45 0x00 0x46 = .ok (.push 0) ∧ decode 0x50 0x01 0x47 = .ok (.call 1) ∧
  decode 0x11 0xFF 0xFF = .ok .ret ∧ decode 0xA1 0x00 0x01 = .ok (.sub 0 1) ∧
  decode 0x69 0x00 0x77 = .ok (.not 0) ∧ decode 0xAC 0x00 0x01 = .ok (.shl 0 1) ∧
  decode 0xA7 0x03 0x03 = .ok (.cmp 3 3) ∧ decode 0x01 0xFF 0xFF = .ok .hlt ∧
  decode 0xA5 0x00 0x01 = .error (.unknownOpcode 0xA5) ∧
  decode 0x00 0x00 0x00 = .error (.unknownOpcode 0x00)

/-- From R6 and R74: whatever distinct bytes the parameter OPCODE_MAP gives the mnemonics, the decoder reads each by
its byte and no other byte. -/
def Obligations.DecodingFollowsTheOpcodeMap : Prop :=
  ∀ (map : OpcodeMap), (∀ m m' : Mnemonic, map m = map m' → m = m') → ∀ op a b : Byte,
    (∀ m, map m = op → decodeWith map op a b = .ok (m.instr a b)) ∧
    ((∀ m, map m ≠ op) → decodeWith map op a b = .error (.unknownOpcode op))

/-- Every instruction, with every operand byte, is read back from its bytes, and the bytes after it are left. -/
def Obligations.DecodingInvertsEncoding : Prop :=
  ∀ (i : Instr) (rest : List Byte), decodeBytes (encode i ++ rest) = .ok (i, rest)

/-- Bytes that decode are the encoding of what they decode to: each instruction has one encoding. -/
def Obligations.EncodingInvertsDecoding : Prop :=
  ∀ (bytes : List Byte) (i : Instr) (rest : List Byte),
    decodeBytes bytes = .ok (i, rest) → encode i ++ rest = bytes

/-- From R77: a byte beyond the instruction's length takes no part in its meaning. -/
def Obligations.BytesBeyondTheLengthAreIgnored : Prop :=
  ∀ (op a b a' b' : Byte) (i : Instr), decode op a b = .ok i →
    (2 ≤ i.length → a' = a) → (3 ≤ i.length → b' = b) → decode op a' b' = .ok i

/-- R76. Exactly 22 bytes are opcodes; each of the other 234 faults in every step that fetches it. -/
def Obligations.UnknownOpcodesFault : Prop :=
  opcodes.Nodup ∧
  ((List.range 256).filter fun n => decide (BitVec.ofNat 8 n ∉ opcodes)).length = 234 ∧
  (∀ op a b : Byte, op ∈ opcodes → ∃ i, decode op a b = .ok i) ∧
  ∀ (s : State) (op a b : Byte), s.Fetches op a b → op ∉ opcodes →
    step s = .next (s.faulted .faultUnknownOpcode 0 (op.setWidth 9))

/-! ### The step -/

/-- R91. The three bytes at pc, pc+1, pc+2 are what is decoded; where one of the addresses is outside memory the
first such address is reported, whatever the bytes inside memory are. -/
def Obligations.EveryStepFetchesThreeBytes : Prop :=
  ∀ s : State, s.halted = false →
    (s.pc.toNat + 2 < memSize → ∀ i : Instr,
      decode (s.mem.read s.pc.toNat) (s.mem.read (s.pc.toNat + 1)) (s.mem.read (s.pc.toNat + 2)) = .ok i →
      step s = exec i s) ∧
    (memSize ≤ s.pc.toNat + 2 →
      step s = .next (s.faulted .faultOutOfRange 0 (BitVec.ofNat 9
        (if memSize ≤ s.pc.toNat then s.pc.toNat
         else if memSize ≤ s.pc.toNat + 1 then s.pc.toNat + 1 else s.pc.toNat + 2))))

/-- The step of a running core on a window that decodes is exec of the decoded instruction, with nothing around it. -/
def Obligations.StepRunsTheDecodedInstruction : Prop :=
  ∀ (s : State) (op a b : Byte) (i : Instr),
    s.Fetches op a b → decode op a b = .ok i → step s = exec i s

/-- R93 (the decision D7). The first register operand byte of 8 or more, `a` before `b`, is reported with space 1;
nothing else of the instruction happens. `regOperands` is the table of R93. -/
def Obligations.RegisterOperandsAreCheckedInOrder : Prop :=
  ∀ (i : Instr) (r : Byte) (s : State),
    i.regOperands.find? (fun x => decide (8 ≤ x.toNat)) = some r →
      exec i s = .next (s.faulted .faultOutOfRange 1 (r.setWidth 9))

/-- R178, R172 and R177 (the decisions D6, D7, D12): the fault a running core's step reports is the first of the
priority order, with its code and information. With none the window decodes, the step is exec of that instruction, and
it halts, if at all, with the status HALT: it reports no fault. -/
def Obligations.StepReportsTheFirstFault : Prop :=
  ∀ s : State, s.halted = false →
    match priorityFault s with
    | some (status, space, value) => step s = .next (s.faulted status space value)
    | none => ∃ i t,
        decode (s.mem.read s.pc.toNat) (s.mem.read (s.pc.toNat + 1)) (s.mem.read (s.pc.toNat + 2)) = .ok i ∧
        step s = exec i s ∧ step s = .next t ∧ (t.halted = false ∨ t.status = .halt)

/-- R98 (the decision D6). A step that ends in a fault status has committed nothing. -/
def Obligations.FaultingStepsCommitNothing : Prop :=
  ∀ s t : State, s.halted = false → s.status = .running → step s = .next t →
    t.status ≠ .running → t.status ≠ .halt →
    t.halted = true ∧ t.faultPc = s.pc ∧ t = s.faulted t.status t.faultSpace t.faultValue

/-- R100: the step is a total function from state to state; it never stops outside the state. -/
def Obligations.EveryStepAnswersANextState : Prop :=
  ∀ s : State, ∃ t, step s = .next t

/-- R99. -/
def Obligations.HaltedCoreChangesNothing : Prop :=
  ∀ (s : State) (rstBefore : Bool) (ps : List Pins), s.halted = true →
    (∀ p ∈ ps, p.rst = false) → clockRun rstBefore ps s = .next s

/-- R30. -/
def Obligations.HaltedIsSetByHltAndFaultsAndClearedByReset : Prop :=
  ∀ (rstBefore : Bool) (p : Pins) (s t : State), clockEdge rstBefore p s = .next t →
    (s.halted = true → t.halted = false → p.rst = true) ∧
    (p.rst = true → t.halted = false) ∧
    (s.halted = false → p.rst = false →
      (t.halted = true ↔
        (priorityFault s).isSome = true ∨ (s.fetchable ∧ s.mem.read s.pc.toNat = 0x01)))

/-- R96. The new PC of a step of these instructions that does not fault is pc plus the length, exactly. -/
def Obligations.DefaultAdvanceIsExact : Prop :=
  ∀ (s t : State) (op a b : Byte) (i : Instr), s.Fetches op a b → decode op a b = .ok i →
    i.mnemonic ∈ [Mnemonic.ldi, .prn, .push, .pop, .add, .sub, .mul, .div, .mod, .and, .or, .xor, .not,
      .shl, .shr, .cmp] →
    step s = .next t → t.halted = false → t.pc.toNat = s.pc.toNat + i.length

/-! ### Rules of the whole machine -/

/-- R28. Only CMP writes FL; its value has no effect on any other part of the next state, but for bit 0 in JEQ and
JNE. -/
def Obligations.FlagsAreWrittenByCmpAndReadByBitZero : Prop :=
  (∀ (i : Instr) (s t : State), exec i s = .next t → t.fl ≠ s.fl → i.mnemonic = .cmp) ∧
  ∀ (i : Instr) (s t : State) (f : Byte), exec i s = .next t →
    (i.mnemonic = .jeq ∨ i.mnemonic = .jne → f.toNat % 2 = s.fl.toNat % 2) →
    ∃ g, exec i { s with fl := f } = .next { t with fl := g }

/-- Memory changes only by PUSH and CALL, at the decremented SP; apart from the fetch window it is read only by POP
and RET, at SP. -/
def Obligations.MemoryIsReachedOnlyThroughTheStack : Prop :=
  (∀ (i : Instr) (s t : State) (x : Nat), exec i s = .next t → t.mem.read x ≠ s.mem.read x →
    (i.mnemonic = .push ∨ i.mnemonic = .call) ∧ x = (s.sp - 1).toNat) ∧
  ∀ (i : Instr) (s t : State) (m : Memory), exec i s = .next t →
    (i.mnemonic = .pop ∨ i.mnemonic = .ret → m.read s.sp.toNat = s.mem.read s.sp.toNat) →
    ∃ m', exec i { s with mem := m } = .next { t with mem := m' }

/-- The output stream only grows, by one byte, in a step that fetches PRN of a register. -/
def Obligations.OutputGrowsOnlyByPrn : Prop :=
  ∀ s t : State, step s = .next t → t.output ≠ s.output →
    ∃ (a b : Byte) (i : RegIdx), s.Fetches 0x47 a b ∧ a.toNat = i.val ∧ t.output = s.output ++ [s.reg i]

/-- From every state, in no more than its named registers does a register change: the destination rA, and SP for the
stack instructions. -/
def Obligations.RegistersChangeOnlyAsNamed : Prop :=
  ∀ (i : Instr) (s t : State) (k : RegIdx), exec i s = .next t → t.reg k ≠ s.reg k →
    (k = 7 ∧ i.mnemonic ∈ [Mnemonic.push, .pop, .call, .ret]) ∨
    (i.regOperands.head? = some (BitVec.ofNat 8 k.val) ∧
      i.mnemonic ∈ [Mnemonic.ldi, .pop, .not, .add, .sub, .mul, .div, .mod, .and, .or, .xor, .shl, .shr])

/-- From R123, which the spec marks as derived. -/
def Obligations.PushThenPopMovesTheValue : Prop :=
  ∀ (a b : Byte) (i j : RegIdx) (s : State), a.toNat = i.val → b.toNat = j.val → i ≠ 7 → j ≠ 7 →
    1 ≤ s.sp.toNat → s.sp.toNat ≤ memSize →
    ∃ t u, exec (.push a) s = .next t ∧ exec (.pop b) t = .next u ∧
      u.reg j = s.reg i ∧ u.sp = s.sp ∧ u.mem.read (s.sp.toNat - 1) = s.reg i

/-- From R135, which the spec marks as derived. `u` is any state in which the subroutine has left SP and the byte at SP
as it found them. -/
def Obligations.CallThenRetReturns : Prop :=
  ∀ (a : Byte) (i : RegIdx) (s : State), a.toNat = i.val → s.fetchable →
    1 ≤ s.sp.toNat → s.sp.toNat ≤ memSize →
    ∃ t, exec (.call a) s = .next t ∧
      ∀ u : State, u.sp = t.sp → u.mem.read t.sp.toNat = t.mem.read t.sp.toNat →
        ∃ v, exec .ret u = .next v ∧ v.pc.toNat = s.pc.toNat + 2 ∧ v.sp = s.sp

/-- One stack for values and return addresses: POP after CALL gives the return address, RET after PUSH jumps to the
pushed value. -/
def Obligations.StackEntriesAreUntagged : Prop :=
  ∀ (a b : Byte) (i j : RegIdx) (s : State), a.toNat = i.val → b.toNat = j.val → j ≠ 7 → s.fetchable →
    1 ≤ s.sp.toNat → s.sp.toNat ≤ memSize →
    (∃ t u, exec (.call a) s = .next t ∧ exec (.pop b) t = .next u ∧
      (u.reg j).toNat = s.pc.toNat + 2 ∧ u.sp = s.sp) ∧
    ∃ t u, exec (.push b) s = .next t ∧ exec .ret t = .next u ∧ u.pc = s.reg j ∧ u.sp = s.sp

/-- CMP sets what JEQ and JNE test. -/
def Obligations.CompareThenConditionalJump : Prop :=
  ∀ (a b c : Byte) (i j k : RegIdx) (s : State), a.toNat = i.val → b.toNat = j.val → c.toNat = k.val →
    ∃ t u v, exec (.cmp a b) s = .next t ∧ exec (.jeq c) t = .next u ∧ exec (.jne c) t = .next v ∧
      (s.reg i = s.reg j → u.pc = s.reg k ∧ PcAdvanced 2 t v) ∧
      (s.reg i ≠ s.reg j → PcAdvanced 2 t u ∧ v.pc = s.reg k)

/-- A jump to a target outside memory completes; the next fetch faults. -/
def Obligations.JumpOutsideMemoryFaultsAtTheNextFetch : Prop :=
  ∀ (s : State) (a b : Byte) (i : RegIdx), s.Fetches 0x54 a b → a.toNat = i.val →
    memSize ≤ (s.reg i).toNat →
    ∃ t, step s = .next t ∧ t.halted = false ∧ t.pc = s.reg i ∧
      step t = .next (t.faulted .faultOutOfRange 0 ((s.reg i).setWidth 9))

/-- From R62. A PUSH that writes into its own fetch window, at pc, pc + 1 or pc + 2, is the PUSH it was fetched as,
with the register its operand byte named before the write. `v` is the byte it stores (R120). Every later fetch of
that address from this memory, as opcode or as operand, reads `v`; for pc + 2 the next step's is one. -/
def Obligations.PushedByteIsFetchedByTheNextStep : Prop :=
  ∀ (s : State) (a b : Byte) (i : RegIdx) (x : Nat), s.Fetches 0x45 a b → a.toNat = i.val →
    (s.sp - 1).toNat = x → s.pc.toNat ≤ x → x ≤ s.pc.toNat + 2 →
    let v := if i = 7 then s.sp - 1 else s.reg i
    step s = exec (.push a) s ∧
    ∃ t, step s = .next t ∧ t.sp = s.sp - 1 ∧ t.mem.read x = v ∧
      Confined [7] [x] s t ∧ t.pc.toNat = s.pc.toNat + 2 ∧
      (∀ (u : State) (op a' b' : Byte), u.mem = t.mem → u.Fetches op a' b' →
        (u.pc.toNat = x → op = v) ∧ (u.pc.toNat + 1 = x → a' = v) ∧ (u.pc.toNat + 2 = x → b' = v)) ∧
      (x = s.pc.toNat + 2 → s.pc.toNat + 4 < memSize →
        t.Fetches v (s.mem.read (s.pc.toNat + 3)) (s.mem.read (s.pc.toNat + 4)))

/-! ### The invariant -/

/-- Every field of the invariant holds right after reset. -/
def Obligations.InvariantHoldsAtReset : Prop := State.reset.Inv

/-- Every step keeps the invariant. -/
def Obligations.EveryStepKeepsTheInvariant : Prop :=
  ∀ s t : State, s.Inv → step s = .next t → t.Inv

/-- Every state that any sequence of clock edges from power-on reaches, with any resets and loads among them, meets
the invariant. -/
def Obligations.EveryReachedStateMeetsTheInvariant : Prop :=
  ∀ (ps : List Pins) (t : State), powerOn ps = .next t → t.Inv

/-- R31 (the decision D12): the codes, and that status = 0 exactly when halted = 0. -/
def Obligations.StatusWordTellsWhyTheCoreHalted : Prop :=
  (Status.code .running = 0 ∧ Status.code .halt = 1 ∧ Status.code .faultUnknownOpcode = 2 ∧
    Status.code .faultOutOfRange = 3 ∧ Status.code .faultDivideByZero = 4 ∧
    Status.code .faultModuloByZero = 5) ∧
  (∀ st : Status, st.code.toNat < 6) ∧
  ∀ s : State, s.Inv → (s.status.code = 0 ↔ s.halted = false)

/-! ### Reset and the host interface -/

/-- R36. -/
def Obligations.ResetStateHoldsItsValues : Prop :=
  (∀ k : RegIdx, k ≠ 7 → State.reset.reg k = 0x00) ∧ State.reset.reg 7 = 0xF4 ∧
  State.reset.pc = 0 ∧ State.reset.fl = 0x00 ∧ State.reset.halted = false ∧
  State.reset.status.code = 0 ∧ State.reset.faultPc = 0 ∧ State.reset.faultSpace = 0 ∧
  State.reset.faultValue = 0 ∧ State.reset.output = [] ∧
  ∀ x, State.reset.mem.read x = 0x00

/-- R190 (the decision D16): what an edge with rst = 1 leaves, from every state. -/
def Obligations.ResetEdgeSetsTheResetValues : Prop :=
  ∀ (rstBefore : Bool) (p : Pins) (s : State), p.rst = true →
    ∃ t, clockEdge rstBefore p s = .next t ∧
      (∀ k : RegIdx, k ≠ 7 → t.reg k = 0x00) ∧ t.reg 7 = 0xF4 ∧ t.pc = 0 ∧ t.fl = 0x00 ∧
      t.halted = false ∧ t.status = .running ∧ t.faultPc = 0 ∧ t.faultSpace = 0 ∧ t.faultValue = 0 ∧
      t.output = [] ∧
      (rstBefore = false → ∀ x, t.mem.read x = 0x00) ∧
      (rstBefore = true → ∀ x, t.mem.read x ≠ s.mem.read x →
        p.loadWe = true ∧ x = p.loadAddr.toNat)

/-- R42 (the decisions D13, D16): the load port. -/
def Obligations.LoadPortWritesOnlyInReset : Prop :=
  ∀ (p : Pins) (s : State), p.loadWe = true →
    (p.rst = true → p.loadAddr.toNat < memSize →
      ∃ t, clockEdge true p s = .next t ∧ t.mem.read p.loadAddr.toNat = p.loadData ∧
        ∀ x, x ≠ p.loadAddr.toNat → t.mem.read x = s.mem.read x) ∧
    (p.rst = true → memSize ≤ p.loadAddr.toNat →
      ∃ t, clockEdge true p s = .next t ∧ t.mem = s.mem) ∧
    (p.rst = true → ∃ t, clockEdge false p s = .next t ∧ ∀ x, t.mem.read x = 0x00) ∧
    (p.rst = false → ∀ rstBefore, clockEdge rstBefore p s = clockEdge rstBefore Pins.run s)

/-- R43 (the decisions D13, D21): the output port shows a byte in exactly the cycles in which a PRN commits. -/
def Obligations.OutputPortShowsThePrnThatCommits : Prop :=
  ∀ (p : Pins) (s : State) (v : Byte),
    outPort p s = some v ↔
      p.rst = false ∧ ∃ (a b : Byte) (i : RegIdx), s.Fetches 0x47 a b ∧ a.toNat = i.val ∧ v = s.reg i

/-- R45 with the table of R40 (the decision D13). -/
def Obligations.ObservationPortShowsTheSelectedValue : Prop :=
  ∀ (s : State) (addr : Byte),
    (addr.toNat < memSize → (observe s 0 addr).toNat = (s.mem.read addr.toNat).toNat) ∧
    (memSize ≤ addr.toNat → observe s 0 addr = 0) ∧
    (∀ i : RegIdx, (addr.extractLsb 2 0).toNat = i.val → (observe s 1 addr).toNat = (s.reg i).toNat) ∧
    (observe s 2 addr).toNat = s.pc.toNat ∧
    (observe s 3 addr).toNat = s.fl.toNat

/-- R56 (the decision D22): a valid image stands from address 0 on, every other cell and all else is as after reset;
any other image is a LoadError. -/
def Obligations.BootPlacesTheImage : Prop :=
  ∀ image : List Nat,
    ((image.length ≤ memSize ∧ ∀ v ∈ image, v < 256) →
      ∃ s, boot image = .next s ∧
        (∀ k (h : k < image.length), (s.mem.read k).toNat = image[k]) ∧
        (∀ k, image.length ≤ k → s.mem.read k = 0x00) ∧
        s = { State.reset with mem := s.mem }) ∧
    (¬ (image.length ≤ memSize ∧ ∀ v ∈ image, v < 256) → boot image = .fault .loadError)

/-! ### The commit of a step, and the invariant over clock edges -/

/-- R95, with R30 and R112: a running core's step for which the priority order has no fault commits the instruction
its window decodes to, and keeps halted, status and the fault record; HLT alone sets halted and the status HALT, and
changes nothing else. -/
def Obligations.StepWithoutAFaultCommits : Prop :=
  ∀ s : State, s.halted = false → priorityFault s = none →
    ∃ i t,
      decode (s.mem.read s.pc.toNat) (s.mem.read (s.pc.toNat + 1)) (s.mem.read (s.pc.toNat + 2)) = .ok i ∧
      step s = exec i s ∧ step s = .next t ∧
      (i ≠ .hlt → RunKept s t) ∧
      (i = .hlt → t = { s with halted := true, status := .halt })

/-- Every clock edge keeps the invariant: a step, a first reset edge, and a later reset edge with or without a write
of the load port. -/
def Obligations.EveryClockEdgeKeepsTheInvariant : Prop :=
  ∀ (rstBefore : Bool) (p : Pins) (s t : State), s.Inv → clockEdge rstBefore p s = .next t → t.Inv
end

