-- ==== Sys2Proof/Laws/State.lean ====
section
/-!
SUPPORT. What each update of the state does to each field, true by rfl, so that no proof unfolds a record update; and
the laws of the register file.
-/

namespace Sys2Proof.Machine

/-! ### The register file -/

@[simp] theorem RegFile.get_set_same (f : RegFile) (i : RegIdx) (v : Byte) : (f.set i v).get i = v := by
  fin_cases i <;> rfl

theorem RegFile.get_set_other (f : RegFile) (i k : RegIdx) (v : Byte) (h : k ≠ i) :
    (f.set i v).get k = f.get k := by
  fin_cases i <;> fin_cases k <;> first | rfl | exact absurd rfl h

/-- A register file is what its registers hold. -/
theorem RegFile.ext_get (f g : RegFile) (h : ∀ i, f.get i = g.get i) : f = g := by
  cases f; cases g
  have h0 := h 0; have h1 := h 1; have h2 := h 2; have h3 := h 3
  have h4 := h 4; have h5 := h 5; have h6 := h 6; have h7 := h 7
  simp only [RegFile.get] at h0 h1 h2 h3 h4 h5 h6 h7
  simp [h0, h1, h2, h3, h4, h5, h6, h7]

/-- x[k] after x[i] <- v (R9, R21). -/
theorem State.reg_setReg (s : State) (i k : RegIdx) (v : Byte) :
    (s.setReg i v).reg k = if k = i then v else s.reg k := by
  unfold State.reg State.setReg
  split
  · next h => subst h; exact RegFile.get_set_same ..
  · next h => exact RegFile.get_set_other _ _ _ _ h

@[simp] theorem State.reg_setReg_same (s : State) (i : RegIdx) (v : Byte) : (s.setReg i v).reg i = v := by
  simp [State.reg_setReg]

/-- x[k] after SP <- v (R22). -/
theorem State.reg_setSp (s : State) (k : RegIdx) (v : Byte) :
    (s.setSp v).reg k = if k = spIdx then v else s.reg k := State.reg_setReg s spIdx k v

@[simp] theorem State.sp_setSp (s : State) (v : Byte) : (s.setSp v).sp = v := State.reg_setReg_same ..

/-- SP after x[i] <- v (R22). -/
theorem State.sp_setReg (s : State) (i : RegIdx) (v : Byte) :
    (s.setReg i v).sp = if spIdx = i then v else s.sp := State.reg_setReg s i spIdx v

theorem State.sp_eq_reg (s : State) : s.sp = s.reg spIdx := rfl

/-! ### setReg -/

@[simp] theorem State.setReg_regs (s : State) (i : RegIdx) (v : Byte) : (s.setReg i v).regs = s.regs.set i v := rfl
@[simp] theorem State.setReg_pc (s : State) (i : RegIdx) (v : Byte) : (s.setReg i v).pc = s.pc := rfl
@[simp] theorem State.setReg_fl (s : State) (i : RegIdx) (v : Byte) : (s.setReg i v).fl = s.fl := rfl
@[simp] theorem State.setReg_mem (s : State) (i : RegIdx) (v : Byte) : (s.setReg i v).mem = s.mem := rfl
@[simp] theorem State.setReg_halted (s : State) (i : RegIdx) (v : Byte) : (s.setReg i v).halted = s.halted := rfl
@[simp] theorem State.setReg_status (s : State) (i : RegIdx) (v : Byte) : (s.setReg i v).status = s.status := rfl
@[simp] theorem State.setReg_faultPc (s : State) (i : RegIdx) (v : Byte) : (s.setReg i v).faultPc = s.faultPc := rfl
@[simp] theorem State.setReg_faultSpace (s : State) (i : RegIdx) (v : Byte) : (s.setReg i v).faultSpace = s.faultSpace := rfl
@[simp] theorem State.setReg_faultValue (s : State) (i : RegIdx) (v : Byte) : (s.setReg i v).faultValue = s.faultValue := rfl
@[simp] theorem State.setReg_output (s : State) (i : RegIdx) (v : Byte) : (s.setReg i v).output = s.output := rfl

/-! ### setSp -/

@[simp] theorem State.setSp_regs (s : State) (v : Byte) : (s.setSp v).regs = s.regs.set spIdx v := rfl
@[simp] theorem State.setSp_pc (s : State) (v : Byte) : (s.setSp v).pc = s.pc := rfl
@[simp] theorem State.setSp_fl (s : State) (v : Byte) : (s.setSp v).fl = s.fl := rfl
@[simp] theorem State.setSp_mem (s : State) (v : Byte) : (s.setSp v).mem = s.mem := rfl
@[simp] theorem State.setSp_halted (s : State) (v : Byte) : (s.setSp v).halted = s.halted := rfl
@[simp] theorem State.setSp_status (s : State) (v : Byte) : (s.setSp v).status = s.status := rfl
@[simp] theorem State.setSp_faultPc (s : State) (v : Byte) : (s.setSp v).faultPc = s.faultPc := rfl
@[simp] theorem State.setSp_faultSpace (s : State) (v : Byte) : (s.setSp v).faultSpace = s.faultSpace := rfl
@[simp] theorem State.setSp_faultValue (s : State) (v : Byte) : (s.setSp v).faultValue = s.faultValue := rfl
@[simp] theorem State.setSp_output (s : State) (v : Byte) : (s.setSp v).output = s.output := rfl

/-! ### setPc -/

@[simp] theorem State.setPc_regs (s : State) (p : PcWord) : (s.setPc p).regs = s.regs := rfl
@[simp] theorem State.setPc_pc (s : State) (p : PcWord) : (s.setPc p).pc = p := rfl
@[simp] theorem State.setPc_fl (s : State) (p : PcWord) : (s.setPc p).fl = s.fl := rfl
@[simp] theorem State.setPc_mem (s : State) (p : PcWord) : (s.setPc p).mem = s.mem := rfl
@[simp] theorem State.setPc_halted (s : State) (p : PcWord) : (s.setPc p).halted = s.halted := rfl
@[simp] theorem State.setPc_status (s : State) (p : PcWord) : (s.setPc p).status = s.status := rfl
@[simp] theorem State.setPc_faultPc (s : State) (p : PcWord) : (s.setPc p).faultPc = s.faultPc := rfl
@[simp] theorem State.setPc_faultSpace (s : State) (p : PcWord) : (s.setPc p).faultSpace = s.faultSpace := rfl
@[simp] theorem State.setPc_faultValue (s : State) (p : PcWord) : (s.setPc p).faultValue = s.faultValue := rfl
@[simp] theorem State.setPc_output (s : State) (p : PcWord) : (s.setPc p).output = s.output := rfl
@[simp] theorem State.setPc_reg (s : State) (p : PcWord) (k : RegIdx) : (s.setPc p).reg k = s.reg k := rfl
@[simp] theorem State.setPc_sp (s : State) (p : PcWord) : (s.setPc p).sp = s.sp := rfl

/-! ### advance -/

@[simp] theorem State.advance_regs (s : State) (n : Nat) : (s.advance n).regs = s.regs := rfl
@[simp] theorem State.advance_pc (s : State) (n : Nat) : (s.advance n).pc = s.pc + BitVec.ofNat 8 n := rfl
@[simp] theorem State.advance_fl (s : State) (n : Nat) : (s.advance n).fl = s.fl := rfl
@[simp] theorem State.advance_mem (s : State) (n : Nat) : (s.advance n).mem = s.mem := rfl
@[simp] theorem State.advance_halted (s : State) (n : Nat) : (s.advance n).halted = s.halted := rfl
@[simp] theorem State.advance_status (s : State) (n : Nat) : (s.advance n).status = s.status := rfl
@[simp] theorem State.advance_faultPc (s : State) (n : Nat) : (s.advance n).faultPc = s.faultPc := rfl
@[simp] theorem State.advance_faultSpace (s : State) (n : Nat) : (s.advance n).faultSpace = s.faultSpace := rfl
@[simp] theorem State.advance_faultValue (s : State) (n : Nat) : (s.advance n).faultValue = s.faultValue := rfl
@[simp] theorem State.advance_output (s : State) (n : Nat) : (s.advance n).output = s.output := rfl
@[simp] theorem State.advance_reg (s : State) (n : Nat) (k : RegIdx) : (s.advance n).reg k = s.reg k := rfl
@[simp] theorem State.advance_sp (s : State) (n : Nat) : (s.advance n).sp = s.sp := rfl

/-! ### setFl -/

@[simp] theorem State.setFl_regs (s : State) (v : Byte) : (s.setFl v).regs = s.regs := rfl
@[simp] theorem State.setFl_pc (s : State) (v : Byte) : (s.setFl v).pc = s.pc := rfl
@[simp] theorem State.setFl_fl (s : State) (v : Byte) : (s.setFl v).fl = v := rfl
@[simp] theorem State.setFl_mem (s : State) (v : Byte) : (s.setFl v).mem = s.mem := rfl
@[simp] theorem State.setFl_halted (s : State) (v : Byte) : (s.setFl v).halted = s.halted := rfl
@[simp] theorem State.setFl_status (s : State) (v : Byte) : (s.setFl v).status = s.status := rfl
@[simp] theorem State.setFl_faultPc (s : State) (v : Byte) : (s.setFl v).faultPc = s.faultPc := rfl
@[simp] theorem State.setFl_faultSpace (s : State) (v : Byte) : (s.setFl v).faultSpace = s.faultSpace := rfl
@[simp] theorem State.setFl_faultValue (s : State) (v : Byte) : (s.setFl v).faultValue = s.faultValue := rfl
@[simp] theorem State.setFl_output (s : State) (v : Byte) : (s.setFl v).output = s.output := rfl
@[simp] theorem State.setFl_reg (s : State) (v : Byte) (k : RegIdx) : (s.setFl v).reg k = s.reg k := rfl
@[simp] theorem State.setFl_sp (s : State) (v : Byte) : (s.setFl v).sp = s.sp := rfl

/-! ### emit -/

@[simp] theorem State.emit_regs (s : State) (v : Byte) : (s.emit v).regs = s.regs := rfl
@[simp] theorem State.emit_pc (s : State) (v : Byte) : (s.emit v).pc = s.pc := rfl
@[simp] theorem State.emit_fl (s : State) (v : Byte) : (s.emit v).fl = s.fl := rfl
@[simp] theorem State.emit_mem (s : State) (v : Byte) : (s.emit v).mem = s.mem := rfl
@[simp] theorem State.emit_halted (s : State) (v : Byte) : (s.emit v).halted = s.halted := rfl
@[simp] theorem State.emit_status (s : State) (v : Byte) : (s.emit v).status = s.status := rfl
@[simp] theorem State.emit_faultPc (s : State) (v : Byte) : (s.emit v).faultPc = s.faultPc := rfl
@[simp] theorem State.emit_faultSpace (s : State) (v : Byte) : (s.emit v).faultSpace = s.faultSpace := rfl
@[simp] theorem State.emit_faultValue (s : State) (v : Byte) : (s.emit v).faultValue = s.faultValue := rfl
@[simp] theorem State.emit_output (s : State) (v : Byte) : (s.emit v).output = s.output ++ [v] := rfl
@[simp] theorem State.emit_reg (s : State) (v : Byte) (k : RegIdx) : (s.emit v).reg k = s.reg k := rfl
@[simp] theorem State.emit_sp (s : State) (v : Byte) : (s.emit v).sp = s.sp := rfl

/-! ### halt -/

@[simp] theorem State.halt_regs (s : State) : s.halt.regs = s.regs := rfl
@[simp] theorem State.halt_pc (s : State) : s.halt.pc = s.pc := rfl
@[simp] theorem State.halt_fl (s : State) : s.halt.fl = s.fl := rfl
@[simp] theorem State.halt_mem (s : State) : s.halt.mem = s.mem := rfl
@[simp] theorem State.halt_halted (s : State) : s.halt.halted = true := rfl
@[simp] theorem State.halt_status (s : State) : s.halt.status = .halt := rfl
@[simp] theorem State.halt_faultPc (s : State) : s.halt.faultPc = s.faultPc := rfl
@[simp] theorem State.halt_faultSpace (s : State) : s.halt.faultSpace = s.faultSpace := rfl
@[simp] theorem State.halt_faultValue (s : State) : s.halt.faultValue = s.faultValue := rfl
@[simp] theorem State.halt_output (s : State) : s.halt.output = s.output := rfl
@[simp] theorem State.halt_reg (s : State) (k : RegIdx) : s.halt.reg k = s.reg k := rfl
@[simp] theorem State.halt_sp (s : State) : s.halt.sp = s.sp := rfl

/-! ### enterFault -/

@[simp] theorem State.enterFault_regs (s : State) (f : Raise) : (s.enterFault f).regs = s.regs := rfl
@[simp] theorem State.enterFault_pc (s : State) (f : Raise) : (s.enterFault f).pc = s.pc := rfl
@[simp] theorem State.enterFault_fl (s : State) (f : Raise) : (s.enterFault f).fl = s.fl := rfl
@[simp] theorem State.enterFault_mem (s : State) (f : Raise) : (s.enterFault f).mem = s.mem := rfl
@[simp] theorem State.enterFault_halted (s : State) (f : Raise) : (s.enterFault f).halted = true := rfl
@[simp] theorem State.enterFault_status (s : State) (f : Raise) : (s.enterFault f).status = f.status := rfl
@[simp] theorem State.enterFault_faultPc (s : State) (f : Raise) : (s.enterFault f).faultPc = s.pc := rfl
@[simp] theorem State.enterFault_faultSpace (s : State) (f : Raise) : (s.enterFault f).faultSpace = f.space := rfl
@[simp] theorem State.enterFault_faultValue (s : State) (f : Raise) : (s.enterFault f).faultValue = f.value := rfl
@[simp] theorem State.enterFault_output (s : State) (f : Raise) : (s.enterFault f).output = s.output := rfl
@[simp] theorem State.enterFault_reg (s : State) (f : Raise) (k : RegIdx) : (s.enterFault f).reg k = s.reg k := rfl
@[simp] theorem State.enterFault_sp (s : State) (f : Raise) : (s.enterFault f).sp = s.sp := rfl

/-! ### setMem -/

@[simp] theorem State.setMem_regs (s : State) (m : Memory) : (s.setMem m).regs = s.regs := rfl
@[simp] theorem State.setMem_pc (s : State) (m : Memory) : (s.setMem m).pc = s.pc := rfl
@[simp] theorem State.setMem_fl (s : State) (m : Memory) : (s.setMem m).fl = s.fl := rfl
@[simp] theorem State.setMem_mem (s : State) (m : Memory) : (s.setMem m).mem = m := rfl
@[simp] theorem State.setMem_halted (s : State) (m : Memory) : (s.setMem m).halted = s.halted := rfl
@[simp] theorem State.setMem_status (s : State) (m : Memory) : (s.setMem m).status = s.status := rfl
@[simp] theorem State.setMem_faultPc (s : State) (m : Memory) : (s.setMem m).faultPc = s.faultPc := rfl
@[simp] theorem State.setMem_faultSpace (s : State) (m : Memory) : (s.setMem m).faultSpace = s.faultSpace := rfl
@[simp] theorem State.setMem_faultValue (s : State) (m : Memory) : (s.setMem m).faultValue = s.faultValue := rfl
@[simp] theorem State.setMem_output (s : State) (m : Memory) : (s.setMem m).output = s.output := rfl
@[simp] theorem State.setMem_reg (s : State) (m : Memory) (k : RegIdx) : (s.setMem m).reg k = s.reg k := rfl
@[simp] theorem State.setMem_sp (s : State) (m : Memory) : (s.setMem m).sp = s.sp := rfl

/-- Fault entry is the entry the claims name (R177). -/
theorem State.enterFault_eq_faulted (s : State) (f : Raise) :
    s.enterFault f = s.faulted f.status f.space f.value := rfl

end Sys2Proof.Machine
end

