-- ==== Sys2Proof/Laws/Memory.lean ====
section
/-!
SUPPORT. The laws of memory: a read after a write (spec/20_memory.md R60), and that every operation keeps the
canonical form.
-/

namespace Sys2Proof.Machine

/-! ### Reads after a write, for every memory -/

theorem Memory.read_erase (m : Memory) (a x : Nat) :
    (m.erase a).read x = if x = a then unlisted else m.read x := by
  induction m with
  | nil => simp [Memory.erase, Memory.read]
  | cons e rest ih =>
    obtain ⟨k, w⟩ := e
    simp only [Memory.erase]
    split <;> simp only [Memory.read, ih] <;> grind

theorem Memory.read_insert (m : Memory) (a x : Nat) (v : Byte) (h : ∀ e ∈ m, e.1 ≠ a) :
    (m.insert a v).read x = if x = a then v else m.read x := by
  induction m with
  | nil => simp only [Memory.insert, Memory.read]; grind
  | cons e rest ih =>
    obtain ⟨k, w⟩ := e
    have hk : k ≠ a := h (k, w) (by simp)
    have ih := ih fun e he => h e (by simp [he])
    simp only [Memory.insert]
    split <;> simp only [Memory.read, ih] <;> grind

theorem Memory.erase_ne (m : Memory) (a : Nat) : ∀ e ∈ m.erase a, e.1 ≠ a := by
  induction m with
  | nil => simp [Memory.erase]
  | cons e rest ih =>
    obtain ⟨k, w⟩ := e
    simp only [Memory.erase]
    split
    · exact ih
    · next h => simpa [h] using ih

/-- A read after a write: the byte written at that address, every other byte as before (R53, R60). -/
theorem Memory.read_write (m : Memory) (a x : Nat) (v : Byte) :
    (m.write a v).read x = if x = a then v else m.read x := by
  unfold Memory.write
  split
  · next h => simp [Memory.read_erase, h]
  · rw [Memory.read_insert _ _ _ _ (Memory.erase_ne m a), Memory.read_erase]
    split <;> rfl

@[simp] theorem Memory.read_write_same (m : Memory) (a : Nat) (v : Byte) : (m.write a v).read a = v := by
  simp [Memory.read_write]

theorem Memory.read_write_other (m : Memory) (a x : Nat) (v : Byte) (h : x ≠ a) :
    (m.write a v).read x = m.read x := by
  simp [Memory.read_write, h]

@[simp] theorem Memory.read_nil (x : Nat) : Memory.read [] x = unlisted := rfl

/-! ### The canonical form -/

theorem Memory.wfFrom_cons (lo k : Nat) (w : Byte) (rest : Memory) :
    Memory.wfFrom lo ((k, w) :: rest) = true ↔
      lo ≤ k ∧ k < memSize ∧ w ≠ unlisted ∧ Memory.wfFrom (k + 1) rest = true := by
  simp [Memory.wfFrom, and_assoc]

theorem Memory.wfFrom_mono {lo lo' : Nat} {m : Memory} (h : Memory.wfFrom lo m = true) (hl : lo' ≤ lo) :
    Memory.wfFrom lo' m = true := by
  cases m with
  | nil => rfl
  | cons e rest =>
    obtain ⟨k, w⟩ := e
    rw [Memory.wfFrom_cons] at h ⊢
    exact ⟨hl.trans h.1, h.2⟩

theorem Memory.wfFrom_erase {lo : Nat} {m : Memory} (a : Nat) (h : Memory.wfFrom lo m = true) :
    Memory.wfFrom lo (m.erase a) = true := by
  induction m generalizing lo with
  | nil => rfl
  | cons e rest ih =>
    obtain ⟨k, w⟩ := e
    obtain ⟨h1, h2, h3, h4⟩ := (Memory.wfFrom_cons ..).mp h
    simp only [Memory.erase]
    split
    · exact Memory.wfFrom_mono (ih h4) (by omega)
    · exact (Memory.wfFrom_cons ..).mpr ⟨h1, h2, h3, ih h4⟩

theorem Memory.wfFrom_insert {lo a : Nat} {m : Memory} {v : Byte} (h : Memory.wfFrom lo m = true)
    (hne : ∀ e ∈ m, e.1 ≠ a) (hlo : lo ≤ a) (ha : a < memSize) (hv : v ≠ unlisted) :
    Memory.wfFrom lo (m.insert a v) = true := by
  induction m generalizing lo with
  | nil => exact (Memory.wfFrom_cons ..).mpr ⟨hlo, ha, hv, rfl⟩
  | cons e rest ih =>
    obtain ⟨k, w⟩ := e
    obtain ⟨h1, h2, h3, h4⟩ := (Memory.wfFrom_cons ..).mp h
    have hk : k ≠ a := hne (k, w) (by simp)
    simp only [Memory.insert]
    split
    · exact (Memory.wfFrom_cons ..).mpr
        ⟨hlo, ha, hv, (Memory.wfFrom_cons ..).mpr ⟨by omega, h2, h3, h4⟩⟩
    · exact (Memory.wfFrom_cons ..).mpr
        ⟨h1, h2, h3, ih h4 (fun e he => hne e (by simp [he])) (by omega)⟩

/-- A write below MEM_SIZE keeps the canonical form. -/
theorem Memory.wf_write {m : Memory} {a : Nat} (v : Byte) (h : m.wf = true) (ha : a < memSize) :
    (m.write a v).wf = true := by
  unfold Memory.write
  split
  · exact Memory.wfFrom_erase a h
  · next hv => exact Memory.wfFrom_insert (Memory.wfFrom_erase a h) (Memory.erase_ne m a) (Nat.zero_le _) ha hv

/-- A checked write keeps the canonical form. -/
theorem memWrite_wf {s t : State} {a : Nat} {v : Byte} (h : memWrite s a v = .ok t) (hs : s.mem.wf = true) :
    t.mem.wf = true := by
  unfold memWrite at h
  split at h
  · next ha => cases h; exact Memory.wf_write v hs ha
  · cases h

theorem pokeCell_wf {m : Memory} (a : Nat) (v : Byte) (h : m.wf = true) : (pokeCell m a v).wf = true := by
  unfold pokeCell
  split
  · next ha => exact Memory.wf_write v h ha
  · exact h

theorem loadPort_wf {m : Memory} (p : Pins) (h : m.wf = true) : (loadPort p m).wf = true := by
  unfold loadPort
  split
  · exact pokeCell_wf _ _ h
  · exact h

theorem placeWindow_wf {s : State} (op a b : Byte) (h : s.mem.wf = true) : (placeWindow s op a b).mem.wf = true :=
  pokeCell_wf _ _ (pokeCell_wf _ _ (pokeCell_wf _ _ h))

theorem State.withFetchWord_wf {s : State} (nbits w : Nat) (h : s.mem.wf = true) :
    (s.withFetchWord nbits w).mem.wf = true := placeWindow_wf _ _ _ h

theorem State.reset_mem_wf : State.reset.mem.wf = true := rfl

/-- Below the first address of a canonical memory every byte reads as unlisted. -/
theorem Memory.read_of_lt {lo : Nat} {m : Memory} (h : Memory.wfFrom lo m = true) {x : Nat} (hx : x < lo) :
    m.read x = unlisted := by
  induction m generalizing lo with
  | nil => rfl
  | cons e rest ih =>
    obtain ⟨k, w⟩ := e
    obtain ⟨h1, -, -, h4⟩ := (Memory.wfFrom_cons ..).mp h
    simp only [Memory.read]
    rw [if_neg (by omega)]
    exact ih h4 (by omega)

/-- Two canonical memories that read the same are equal. -/
theorem Memory.eq_of_read_eq {lo : Nat} {m n : Memory} (hm : Memory.wfFrom lo m = true)
    (hn : Memory.wfFrom lo n = true) (h : ∀ x, m.read x = n.read x) : m = n := by
  induction m generalizing lo n with
  | nil =>
    cases n with
    | nil => rfl
    | cons e rest =>
      obtain ⟨k, w⟩ := e
      obtain ⟨-, -, h3, -⟩ := (Memory.wfFrom_cons ..).mp hn
      exact absurd (by simpa [Memory.read] using (h k).symm) h3
  | cons e rest ih =>
    obtain ⟨k, w⟩ := e
    obtain ⟨hm1, hm2, hm3, hm4⟩ := (Memory.wfFrom_cons ..).mp hm
    cases n with
    | nil => exact absurd (by simpa [Memory.read] using h k) hm3
    | cons e' rest' =>
      obtain ⟨k', w'⟩ := e'
      obtain ⟨hn1, hn2, hn3, hn4⟩ := (Memory.wfFrom_cons ..).mp hn
      have hkk : k = k' := by
        rcases Nat.lt_trichotomy k k' with hlt | heq | hgt
        · have := h k
          rw [Memory.read_of_lt ((Memory.wfFrom_cons ..).mpr ⟨Nat.le_refl k', hn2, hn3, hn4⟩) hlt] at this
          exact absurd (by simpa [Memory.read] using this) hm3
        · exact heq
        · have := h k'
          rw [Memory.read_of_lt ((Memory.wfFrom_cons ..).mpr ⟨Nat.le_refl k, hm2, hm3, hm4⟩) hgt] at this
          exact absurd (by simpa [Memory.read] using this.symm) hn3
      subst hkk
      have hw : w = w' := by simpa [Memory.read] using h k
      subst hw
      rw [ih hm4 hn4]
      intro x
      by_cases hx : x = k
      · subst hx
        rw [Memory.read_of_lt hm4 (by omega), Memory.read_of_lt hn4 (by omega)]
      · simpa [Memory.read, Ne.symm hx] using h x

end Sys2Proof.Machine
end

