-- ==== Sys2Proof/Laws/Ops.lean ====
section
/-!
SUPPORT. One lemma for each shared operation: everything it can do.
-/

namespace Sys2Proof.Machine

/-! ### Operands and memory accesses -/

/-- A byte 0..7 selects its register (R24). -/
theorem regIndex_of_eq {r : Byte} {i : RegIdx} (h : r.toNat = i.val) : regIndex r = .ok i := by
  have h8 : r.toNat < 8 := h ▸ i.isLt
  unfold regIndex
  rw [dif_pos h8]
  exact congrArg _ (Fin.ext h)

/-- A byte 8..255 selects none (R24, R173). -/
theorem regIndex_of_ge {r : Byte} (h : 8 ≤ r.toNat) : regIndex r = .error (.outOfRangeRegister r) := by
  unfold regIndex
  rw [dif_neg (by omega)]

/-- The two outcomes of the register check. -/
theorem regIndex_cases (r : Byte) :
    (∃ i : RegIdx, r.toNat = i.val ∧ regIndex r = .ok i) ∨
    (8 ≤ r.toNat ∧ regIndex r = .error (.outOfRangeRegister r)) := by
  by_cases h : r.toNat < 8
  · exact .inl ⟨⟨r.toNat, h⟩, rfl, regIndex_of_eq rfl⟩
  · exact .inr ⟨by omega, regIndex_of_ge (by omega)⟩

/-- A read below MEM_SIZE (R52). -/
theorem memRead_of_lt {s : State} {a : Nat} (h : a < memSize) : memRead s a = .ok (s.mem.read a) := if_pos h

/-- A read at or above MEM_SIZE (R52). -/
theorem memRead_of_ge {s : State} {a : Nat} (h : memSize ≤ a) : memRead s a = .error (.outOfRangeMemory a) :=
  if_neg (by omega)

/-- A write below MEM_SIZE (R52). -/
theorem memWrite_of_lt {s : State} {a : Nat} {v : Byte} (h : a < memSize) :
    memWrite s a v = .ok (s.setMem (s.mem.write a v)) := if_pos h

/-- A write at or above MEM_SIZE (R52). -/
theorem memWrite_of_ge {s : State} {a : Nat} {v : Byte} (h : memSize ≤ a) :
    memWrite s a v = .error (.outOfRangeMemory a) := if_neg (by omega)

/-! ### The end of a step -/

/-- A step's end commits all of its effects or enters the fault it raised (R95, R98). -/
theorem commit_eq_next {s t : State} {r : Except Raise State} (h : commit s r = .next t) :
    r = .ok t ∨ ∃ f, r = .error f ∧ t = s.enterFault f := by
  cases r with
  | ok u => cases h; exact .inl rfl
  | error f => cases h; exact .inr ⟨f, rfl, rfl⟩

/-- A step's end always answers a next state. -/
theorem commit_total (s : State) (r : Except Raise State) : ∃ t, commit s r = .next t := by
  cases r with
  | ok u => exact ⟨u, rfl⟩
  | error f => exact ⟨_, rfl⟩

/-! ### The stack forms -/

/-- Everything a push does: with the decremented SP below MEM_SIZE, SP and one byte are written; else it raises
OutOfRangeAccess with the decremented SP (R120, R130). -/
theorem pushByte_cases (s : State) (v : State → Byte) :
    ((s.sp - 1).toNat < memSize ∧
      pushByte s v =
        .ok ((s.setSp (s.sp - 1)).setMem (s.mem.write (s.sp - 1).toNat (v (s.setSp (s.sp - 1)))))) ∨
    (memSize ≤ (s.sp - 1).toNat ∧ pushByte s v = .error (.outOfRangeMemory (s.sp - 1).toNat)) := by
  by_cases h : (s.sp - 1).toNat < memSize
  · refine .inl ⟨h, ?_⟩
    simp only [pushByte, State.sp_setSp, memWrite_of_lt h, State.setSp_mem]
  · refine .inr ⟨by omega, ?_⟩
    simp only [pushByte, State.sp_setSp, memWrite_of_ge (Nat.not_lt.mp h)]

/-- Everything a pop's read does (R121, R131). -/
theorem popRead_cases (s : State) :
    (s.sp.toNat < memSize ∧ popRead s = .ok (s.mem.read s.sp.toNat)) ∨
    (memSize ≤ s.sp.toNat ∧ popRead s = .error (.outOfRangeMemory s.sp.toNat)) := by
  by_cases h : s.sp.toNat < memSize
  · exact .inl ⟨h, memRead_of_lt h⟩
  · exact .inr ⟨by omega, memRead_of_ge (by omega)⟩

@[simp] theorem popAdjust_pc (s : State) : (popAdjust s).pc = s.pc := rfl
@[simp] theorem popAdjust_fl (s : State) : (popAdjust s).fl = s.fl := rfl
@[simp] theorem popAdjust_mem (s : State) : (popAdjust s).mem = s.mem := rfl
@[simp] theorem popAdjust_halted (s : State) : (popAdjust s).halted = s.halted := rfl
@[simp] theorem popAdjust_status (s : State) : (popAdjust s).status = s.status := rfl
@[simp] theorem popAdjust_faultPc (s : State) : (popAdjust s).faultPc = s.faultPc := rfl
@[simp] theorem popAdjust_faultSpace (s : State) : (popAdjust s).faultSpace = s.faultSpace := rfl
@[simp] theorem popAdjust_faultValue (s : State) : (popAdjust s).faultValue = s.faultValue := rfl
@[simp] theorem popAdjust_output (s : State) : (popAdjust s).output = s.output := rfl

/-- The registers after SP <- SP + 1. -/
theorem popAdjust_reg (s : State) (k : RegIdx) :
    (popAdjust s).reg k = if k = spIdx then s.sp + 1 else s.reg k := State.reg_setSp ..

/-! ### The ALU shapes -/

/-- Everything a two-register ALU instruction does, in the order of R178: the check of `a`, the check of `b`, the
operation's own fault, the result. -/
theorem aluRR_cases (f : Byte → Byte → Except Raise Byte) (a b : Byte) (s : State) :
    (8 ≤ a.toNat ∧ aluRR f a b s = .next (s.enterFault (.outOfRangeRegister a))) ∨
    (a.toNat < 8 ∧ 8 ≤ b.toNat ∧ aluRR f a b s = .next (s.enterFault (.outOfRangeRegister b))) ∨
    ∃ i j : RegIdx, a.toNat = i.val ∧ b.toNat = j.val ∧
      ((∃ e, f (s.reg i) (s.reg j) = .error e ∧ aluRR f a b s = .next (s.enterFault e)) ∨
       ∃ v, f (s.reg i) (s.reg j) = .ok v ∧ aluRR f a b s = .next ((s.setReg i v).advance 3)) := by
  rcases regIndex_cases a with ⟨i, hi, ha⟩ | ⟨hi, ha⟩
  · rcases regIndex_cases b with ⟨j, hj, hb⟩ | ⟨hj, hb⟩
    · refine .inr (.inr ⟨i, j, hi, hj, ?_⟩)
      cases hf : f (s.reg i) (s.reg j) with
      | error e => exact .inl ⟨e, rfl, by simp [aluRR, ha, hb, hf, commit, bind, Except.bind]⟩
      | ok v => exact .inr ⟨v, rfl, by simp [aluRR, ha, hb, hf, commit, bind, Except.bind, pure, Except.pure]⟩
    · exact .inr (.inl ⟨hi ▸ i.isLt, hj, by simp [aluRR, ha, hb, commit, bind, Except.bind]⟩)
  · exact .inl ⟨hi, by simp [aluRR, ha, commit, bind, Except.bind]⟩

/-- Everything a one-register ALU instruction does. -/
theorem aluR_cases (f : Byte → Byte) (a : Byte) (s : State) :
    (8 ≤ a.toNat ∧ aluR f a s = .next (s.enterFault (.outOfRangeRegister a))) ∨
    ∃ i : RegIdx, a.toNat = i.val ∧ aluR f a s = .next ((s.setReg i (f (s.reg i))).advance 2) := by
  rcases regIndex_cases a with ⟨i, hi, ha⟩ | ⟨hi, ha⟩
  · exact .inr ⟨i, hi, by simp [aluR, ha, commit, bind, Except.bind, pure, Except.pure]⟩
  · exact .inl ⟨hi, by simp [aluR, ha, commit, bind, Except.bind]⟩

/-! ### Fetch -/

/-- Fetch and decode of a window inside memory (R91, R92). -/
theorem fetchDecode_of_fetchable {s : State} (h : s.fetchable) :
    fetchDecode s =
      match decode (s.mem.read s.pc.toNat) (s.mem.read (s.pc.toNat + 1)) (s.mem.read (s.pc.toNat + 2)) with
      | .ok i => .ok i
      | .error _ => .error (.unknownOpcode (s.mem.read s.pc.toNat)) := by
  have h : s.pc.toNat + 2 < memSize := h
  simp only [fetchDecode, memRead_of_lt (show s.pc.toNat < memSize by omega),
    memRead_of_lt (show s.pc.toNat + 1 < memSize by omega), memRead_of_lt h, bind, Except.bind]
  rfl

/-- Fetch of a window that reaches past memory: the first missing address is reported (R91, R178). -/
theorem fetchDecode_of_not_fetchable {s : State} (h : ¬ s.fetchable) :
    fetchDecode s = .error (.outOfRangeMemory (if memSize ≤ s.pc.toNat then s.pc.toNat
      else if memSize ≤ s.pc.toNat + 1 then s.pc.toNat + 1 else s.pc.toNat + 2)) := by
  have h : memSize ≤ s.pc.toNat + 2 := Nat.not_lt.mp h
  by_cases h0 : memSize ≤ s.pc.toNat
  · simp [fetchDecode, memRead_of_ge h0, h0, bind, Except.bind]
  · by_cases h1 : memSize ≤ s.pc.toNat + 1
    · simp [fetchDecode, memRead_of_lt (Nat.not_le.mp h0), memRead_of_ge h1, h0, h1, bind, Except.bind]
    · simp [fetchDecode, memRead_of_lt (Nat.not_le.mp h0), memRead_of_lt (Nat.not_le.mp h1), memRead_of_ge h,
        h0, h1, bind, Except.bind]

/-- The step of a running core (R100). -/
theorem step_of_running {s : State} (h : s.halted = false) :
    step s = match fetchDecode s with
      | .error f => .next (s.enterFault f)
      | .ok i => exec i s :=
  if_neg (by rw [h]; exact Bool.false_ne_true)

end Sys2Proof.Machine
end

