-- ==== Sys2Proof/Laws/Decode.lean ====
section
/-!
SUPPORT. The opcode map: its values are distinct, so decoding compares to one mnemonic or none (spec/30_encoding.md
R74).
-/

namespace Sys2Proof

/-- Every mnemonic is listed. -/
theorem Mnemonic.mem_all (m : Mnemonic) : m ∈ Mnemonic.all := by cases m <;> decide

/-- The opcode of a mnemonic decodes to it. -/
theorem decodeOpcode_opcodeMap (m : Mnemonic) : decodeOpcode opcodeMap (opcodeMap m) = some m := by
  cases m <;> decide

/-- A byte that decodes is the opcode of its mnemonic. -/
theorem opcodeMap_of_decodeOpcode {op : Byte} {m : Mnemonic} (h : decodeOpcode opcodeMap op = some m) :
    opcodeMap m = op := by
  simpa using List.find?_some h

/-- The values of R72 are distinct. -/
theorem opcodeMap_injective (m n : Mnemonic) (h : opcodeMap m = opcodeMap n) : m = n := by
  have := decodeOpcode_opcodeMap m
  rw [h, decodeOpcode_opcodeMap] at this
  exact (Option.some.inj this).symm

/-- The two outcomes of decoding a window (R74, R92). -/
theorem decode_cases (op a b : Byte) :
    (∃ m, op = opcodeMap m ∧ decode op a b = .ok (m.instr a b)) ∨
    ((∀ m, op ≠ opcodeMap m) ∧ decode op a b = .error (.unknownOpcode op)) := by
  cases h : decodeOpcode opcodeMap op with
  | some m => exact .inl ⟨m, (opcodeMap_of_decodeOpcode h).symm, by simp [decode, decodeWith, h]⟩
  | none =>
    refine .inr ⟨?_, by simp [decode, decodeWith, h]⟩
    rintro m rfl
    simp [decodeOpcode_opcodeMap] at h

/-- Bits 7..6 of every opcode are the length less one (R73; informative, no definition reads them). -/
theorem opcodeMap_length (m : Mnemonic) : ((opcodeMap m).extractLsb 7 6).toNat + 1 = m.format.length := by
  cases m <;> decide

/-- The instruction of a mnemonic has that mnemonic. -/
@[simp] theorem Mnemonic.instr_mnemonic (m : Mnemonic) (a b : Byte) : (m.instr a b).mnemonic = m := by
  cases m <;> rfl

end Sys2Proof
end

