-- ==== Sys2Proof/Laws/Exec.lean ====
section
/-!
SUPPORT. What exec can do, said once for all 22 instructions: it enters a fault of `RaisedBy` or commits the change of
`Effect`. Rules of the whole machine follow from `exec_cases` without unfolding a meaning.
-/

namespace Sys2Proof.Machine

theorem exec_hlt (s : State) : exec .hlt s = execHlt s := rfl
theorem exec_ret (s : State) : exec .ret s = execRet s := rfl
theorem exec_push (a : Byte) (s : State) : exec (.push a) s = execPush a s := rfl
theorem exec_pop (a : Byte) (s : State) : exec (.pop a) s = execPop a s := rfl
theorem exec_prn (a : Byte) (s : State) : exec (.prn a) s = execPrn a s := rfl
theorem exec_call (a : Byte) (s : State) : exec (.call a) s = execCall a s := rfl
theorem exec_jmp (a : Byte) (s : State) : exec (.jmp a) s = execJmp a s := rfl
theorem exec_jeq (a : Byte) (s : State) : exec (.jeq a) s = execJeq a s := rfl
theorem exec_jne (a : Byte) (s : State) : exec (.jne a) s = execJne a s := rfl
theorem exec_not (a : Byte) (s : State) : exec (.not a) s = execNot a s := rfl
theorem exec_ldi (a b : Byte) (s : State) : exec (.ldi a b) s = execLdi a b s := rfl
theorem exec_add (a b : Byte) (s : State) : exec (.add a b) s = execAdd a b s := rfl
theorem exec_sub (a b : Byte) (s : State) : exec (.sub a b) s = execSub a b s := rfl
theorem exec_mul (a b : Byte) (s : State) : exec (.mul a b) s = execMul a b s := rfl
theorem exec_div (a b : Byte) (s : State) : exec (.div a b) s = execDiv a b s := rfl
theorem exec_mod (a b : Byte) (s : State) : exec (.mod a b) s = execMod a b s := rfl
theorem exec_cmp (a b : Byte) (s : State) : exec (.cmp a b) s = execCmp a b s := rfl
theorem exec_and (a b : Byte) (s : State) : exec (.and a b) s = execAnd a b s := rfl
theorem exec_or (a b : Byte) (s : State) : exec (.or a b) s = execOr a b s := rfl
theorem exec_xor (a b : Byte) (s : State) : exec (.xor a b) s = execXor a b s := rfl
theorem exec_shl (a b : Byte) (s : State) : exec (.shl a b) s = execShl a b s := rfl
theorem exec_shr (a b : Byte) (s : State) : exec (.shr a b) s = execShr a b s := rfl

/-- The faults an instruction can raise in a state (R93, R172). -/
def RaisedBy (i : Instr) (s : State) (f : Raise) : Prop :=
  (∃ r ∈ i.regOperands, 8 ≤ r.toNat ∧ f = .outOfRangeRegister r) ∨
  match i with
  | .div _ b => (∃ j : RegIdx, b.toNat = j.val ∧ s.reg j = 0) ∧ f = .divideByZero
  | .mod _ b => (∃ j : RegIdx, b.toNat = j.val ∧ s.reg j = 0) ∧ f = .moduloByZero
  | .push _ | .call _ => memSize ≤ (s.sp - 1).toNat ∧ f = .outOfRangeMemory (s.sp - 1).toNat
  | .pop _ | .ret => memSize ≤ s.sp.toNat ∧ f = .outOfRangeMemory s.sp.toNat
  | _ => False

/-- The state after a two-register ALU instruction with result `v`. -/
def AluEffect (v : Byte → Byte → Byte) (a b : Byte) (s t : State) : Prop :=
  ∃ i j : RegIdx, a.toNat = i.val ∧ b.toNat = j.val ∧ t = (s.setReg i (v (s.reg i) (s.reg j))).advance 3

/-- The state an instruction that raises nothing commits. -/
def Effect (i : Instr) (s t : State) : Prop :=
  match i with
  | .hlt => t = s.halt
  | .ret => s.sp.toNat < memSize ∧ t = popAdjust (s.setPc (s.mem.read s.sp.toNat))
  | .push a => ∃ i : RegIdx, a.toNat = i.val ∧ (s.sp - 1).toNat < memSize ∧
      t = ((s.setSp (s.sp - 1)).setMem
        (s.mem.write (s.sp - 1).toNat ((s.setSp (s.sp - 1)).reg i))).advance 2
  | .pop a => ∃ i : RegIdx, a.toNat = i.val ∧ s.sp.toNat < memSize ∧
      t = (popAdjust (s.setReg i (s.mem.read s.sp.toNat))).advance 2
  | .prn a => ∃ i : RegIdx, a.toNat = i.val ∧ t = (s.emit (s.reg i)).advance 2
  | .call a => ∃ i : RegIdx, a.toNat = i.val ∧ (s.sp - 1).toNat < memSize ∧
      t = ((s.setSp (s.sp - 1)).setMem (s.mem.write (s.sp - 1).toNat (s.pc + 2))).setPc
        ((s.setSp (s.sp - 1)).reg i)
  | .jmp a => ∃ i : RegIdx, a.toNat = i.val ∧ t = s.setPc (s.reg i)
  | .jeq a => ∃ i : RegIdx, a.toNat = i.val ∧ t = if flagE s.fl then s.setPc (s.reg i) else s.advance 2
  | .jne a => ∃ i : RegIdx, a.toNat = i.val ∧ t = if flagE s.fl then s.advance 2 else s.setPc (s.reg i)
  | .not a => ∃ i : RegIdx, a.toNat = i.val ∧ t = (s.setReg i (aluNot (s.reg i))).advance 2
  | .ldi a imm => ∃ i : RegIdx, a.toNat = i.val ∧ t = (s.setReg i imm).advance 3
  | .add a b => AluEffect aluAdd a b s t
  | .sub a b => AluEffect aluSub a b s t
  | .mul a b => AluEffect aluMul a b s t
  | .div a b => AluEffect (· / ·) a b s t ∧ ∀ j : RegIdx, b.toNat = j.val → s.reg j ≠ 0
  | .mod a b => AluEffect (· % ·) a b s t ∧ ∀ j : RegIdx, b.toNat = j.val → s.reg j ≠ 0
  | .cmp a b => ∃ i j : RegIdx, a.toNat = i.val ∧ b.toNat = j.val ∧
      t = (s.setFl (compareFlags (s.reg i) (s.reg j))).advance 3
  | .and a b => AluEffect aluAnd a b s t
  | .or a b => AluEffect aluOr a b s t
  | .xor a b => AluEffect aluXor a b s t
  | .shl a b => AluEffect (aluShl shiftGe8) a b s t
  | .shr a b => AluEffect (aluShr shiftGe8) a b s t

/-- One of the two ends of an instruction, with the answer of exec. -/
def ExecEnds (i : Instr) (s : State) : Prop :=
  (∃ f, RaisedBy i s f ∧ exec i s = .next (s.enterFault f)) ∨ ∃ t, Effect i s t ∧ exec i s = .next t

/-- A register operand that selects no register ends an instruction with one register operand. -/
theorem RaisedBy.register {i : Instr} {s : State} {r : Byte} (h : 8 ≤ r.toNat) (hr : r ∈ i.regOperands) :
    RaisedBy i s (.outOfRangeRegister r) := .inl ⟨r, hr, h, rfl⟩

/-- The ALU instructions whose operation raises nothing. -/
theorem ExecEnds.alu {i : Instr} {s : State} {a b : Byte} {v : Byte → Byte → Byte}
    (hregs : i.regOperands = [a, b]) (heff : ∀ t, AluEffect v a b s t → Effect i s t)
    (hexec : exec i s = aluRR (fun x y => .ok (v x y)) a b s) : ExecEnds i s := by
  rcases aluRR_cases (fun x y => .ok (v x y)) a b s with
    ⟨h, he⟩ | ⟨-, h, he⟩ | ⟨i', j, hi, hj, ⟨e, hf, -⟩ | ⟨w, hf, he⟩⟩
  · exact .inl ⟨_, .register h (by simp [hregs]), hexec.trans he⟩
  · exact .inl ⟨_, .register h (by simp [hregs]), hexec.trans he⟩
  · cases hf
  · cases hf
    exact .inr ⟨_, heff _ ⟨i', j, hi, hj, rfl⟩, hexec.trans he⟩

/-- The ALU instructions with a divisor. -/
theorem ExecEnds.divide {i : Instr} {s : State} {a b : Byte} {v : Byte → Byte → Byte} {e : Raise}
    (hregs : i.regOperands = [a, b])
    (heff : ∀ t, AluEffect v a b s t → (∀ j : RegIdx, b.toNat = j.val → s.reg j ≠ 0) → Effect i s t)
    (hraise : (∃ j : RegIdx, b.toNat = j.val ∧ s.reg j = 0) → RaisedBy i s e)
    (hexec : exec i s = aluRR (fun x y => if y = 0 then .error e else .ok (v x y)) a b s) :
    ExecEnds i s := by
  rcases aluRR_cases (fun x y => if y = 0 then .error e else .ok (v x y)) a b s with
    ⟨h, he⟩ | ⟨-, h, he⟩ | ⟨i', j, hi, hj, ⟨e', hf, he⟩ | ⟨w, hf, he⟩⟩
  · exact .inl ⟨_, .register h (by simp [hregs]), hexec.trans he⟩
  · exact .inl ⟨_, .register h (by simp [hregs]), hexec.trans he⟩
  · split at hf
    · next h0 => cases hf; exact .inl ⟨_, hraise ⟨j, hj, h0⟩, hexec.trans he⟩
    · cases hf
  · split at hf
    · cases hf
    · next h0 =>
      cases hf
      refine .inr ⟨_, heff _ ⟨i', j, hi, hj, rfl⟩ fun j' hj' => ?_, hexec.trans he⟩
      rwa [show j' = j from Fin.ext (hj'.symm.trans hj)]

/-- The instructions with one register operand and nothing else to raise. -/
theorem ExecEnds.oneReg {i : Instr} {s : State} {a : Byte} {k : RegIdx → State} (hregs : i.regOperands = [a])
    (heff : ∀ r : RegIdx, a.toNat = r.val → Effect i s (k r))
    (hexec : exec i s = commit s (regIndex a >>= fun r => pure (k r))) : ExecEnds i s := by
  rcases regIndex_cases a with ⟨r, hr, ha⟩ | ⟨h, ha⟩
  · exact .inr ⟨_, heff r hr, by simp [hexec, ha, commit, bind, Except.bind, pure, Except.pure]⟩
  · exact .inl ⟨_, .register h (by simp [hregs]), by simp [hexec, ha, commit, bind, Except.bind]⟩

/-- Everything an instruction can do, in every state. -/
theorem exec_cases (i : Instr) (s : State) : ExecEnds i s := by
  cases i with
  | hlt => exact .inr ⟨_, rfl, rfl⟩
  | ret =>
    rcases popRead_cases s with ⟨h, hp⟩ | ⟨h, hp⟩
    · exact .inr ⟨_, ⟨h, rfl⟩,
        by simp [exec_ret, execRet, hp, commit, bind, Except.bind, pure, Except.pure]⟩
    · exact .inl ⟨_, .inr ⟨h, rfl⟩, by simp [exec_ret, execRet, hp, commit, bind, Except.bind]⟩
  | push a =>
    rcases regIndex_cases a with ⟨r, hr, ha⟩ | ⟨h, ha⟩
    · rcases pushByte_cases s (fun u => u.reg r) with ⟨h, hp⟩ | ⟨h, hp⟩
      · exact .inr ⟨_, ⟨r, hr, h, rfl⟩,
          by simp only [exec_push, execPush, ha, hp, commit, bind, Except.bind, pure, Except.pure]⟩
      · exact .inl ⟨_, .inr ⟨h, rfl⟩,
          by simp only [exec_push, execPush, ha, hp, commit, bind, Except.bind]⟩
    · exact .inl ⟨_, .register h (by simp [Instr.regOperands]),
        by simp only [exec_push, execPush, ha, commit, bind, Except.bind]⟩
  | pop a =>
    rcases regIndex_cases a with ⟨r, hr, ha⟩ | ⟨h, ha⟩
    · rcases popRead_cases s with ⟨h, hp⟩ | ⟨h, hp⟩
      · exact .inr ⟨_, ⟨r, hr, h, rfl⟩,
          by simp only [exec_pop, execPop, ha, hp, commit, bind, Except.bind, pure, Except.pure]⟩
      · exact .inl ⟨_, .inr ⟨h, rfl⟩,
          by simp only [exec_pop, execPop, ha, hp, commit, bind, Except.bind]⟩
    · exact .inl ⟨_, .register h (by simp [Instr.regOperands]),
        by simp only [exec_pop, execPop, ha, commit, bind, Except.bind]⟩
  | call a =>
    rcases regIndex_cases a with ⟨r, hr, ha⟩ | ⟨h, ha⟩
    · rcases pushByte_cases s (fun u => u.pc + 2) with ⟨h, hp⟩ | ⟨h, hp⟩
      · exact .inr ⟨_, ⟨r, hr, h, rfl⟩,
          by simp only [exec_call, execCall, ha, hp, commit, bind, Except.bind, pure, Except.pure,
            State.setMem_reg, State.setSp_pc]⟩
      · exact .inl ⟨_, .inr ⟨h, rfl⟩,
          by simp only [exec_call, execCall, ha, hp, commit, bind, Except.bind]⟩
    · exact .inl ⟨_, .register h (by simp [Instr.regOperands]),
        by simp only [exec_call, execCall, ha, commit, bind, Except.bind]⟩
  | prn a => exact .oneReg rfl (fun r hr => ⟨r, hr, rfl⟩) rfl
  | jmp a => exact .oneReg rfl (fun r hr => ⟨r, hr, rfl⟩) rfl
  | jeq a => exact .oneReg rfl (fun r hr => ⟨r, hr, rfl⟩) rfl
  | jne a => exact .oneReg rfl (fun r hr => ⟨r, hr, rfl⟩) rfl
  | not a => exact .oneReg rfl (fun r hr => ⟨r, hr, rfl⟩) rfl
  | ldi a imm => exact .oneReg rfl (fun r hr => ⟨r, hr, rfl⟩) rfl
  | cmp a b =>
    rcases regIndex_cases a with ⟨r, hr, ha⟩ | ⟨h, ha⟩
    · rcases regIndex_cases b with ⟨r', hr', hb⟩ | ⟨h, hb⟩
      · exact .inr ⟨_, ⟨r, r', hr, hr', rfl⟩,
          by simp only [exec_cmp, execCmp, ha, hb, commit, bind, Except.bind, pure, Except.pure]⟩
      · exact .inl ⟨_, .register h (by simp [Instr.regOperands]),
          by simp only [exec_cmp, execCmp, ha, hb, commit, bind, Except.bind]⟩
    · exact .inl ⟨_, .register h (by simp [Instr.regOperands]),
        by simp only [exec_cmp, execCmp, ha, commit, bind, Except.bind]⟩
  | add a b => exact .alu rfl (fun _ h => h) rfl
  | sub a b => exact .alu rfl (fun _ h => h) rfl
  | mul a b => exact .alu rfl (fun _ h => h) rfl
  | and a b => exact .alu rfl (fun _ h => h) rfl
  | or a b => exact .alu rfl (fun _ h => h) rfl
  | xor a b => exact .alu rfl (fun _ h => h) rfl
  | shl a b => exact .alu rfl (fun _ h => h) rfl
  | shr a b => exact .alu rfl (fun _ h => h) rfl
  | div a b => exact .divide rfl (fun _ h h0 => ⟨h, h0⟩) (fun h => .inr ⟨h, rfl⟩) rfl
  | mod a b => exact .divide rfl (fun _ h h0 => ⟨h, h0⟩) (fun h => .inr ⟨h, rfl⟩) rfl

/-- A next state of exec is a fault entry or an effect. -/
theorem exec_eq_next {i : Instr} {s t : State} (h : exec i s = .next t) :
    (∃ f, RaisedBy i s f ∧ t = s.enterFault f) ∨ Effect i s t := by
  rcases exec_cases i s with ⟨f, hf, he⟩ | ⟨u, hu, he⟩
  · rw [he] at h; cases h; exact .inl ⟨f, hf, rfl⟩
  · rw [he] at h; cases h; exact .inr hu

/-- Every instruction answers a next state. -/
theorem exec_total (i : Instr) (s : State) : ∃ t, exec i s = .next t := by
  rcases exec_cases i s with ⟨f, -, he⟩ | ⟨t, -, he⟩ <;> exact ⟨_, he⟩

/-- A next state of step: unchanged when halted, else a fault of fetch or decode, or the decoded instruction's. -/
theorem step_eq_next {s t : State} (h : step s = .next t) :
    (s.halted = true ∧ t = s) ∨
    (s.halted = false ∧ ∃ f, fetchDecode s = .error f ∧ t = s.enterFault f) ∨
    (s.halted = false ∧ ∃ i, fetchDecode s = .ok i ∧ exec i s = .next t) := by
  unfold step at h
  split at h
  · next hh => cases h; exact .inl ⟨hh, rfl⟩
  · next hh =>
    have hh : s.halted = false := by simpa using hh
    split at h
    · next f hf => cases h; exact .inr (.inl ⟨hh, f, hf, rfl⟩)
    · next i hi => exact .inr (.inr ⟨hh, i, hi, h⟩)

end Sys2Proof.Machine
end

