-- ==== Sys2Proof/Laws/PerInstr.lean ====
section
/-!
SUPPORT. A statement of each instruction as syntax, one lemma per constructor: the shape of its encoding.
-/

/-- The encoding's first byte is the opcode, the operand bytes the check of R93 reads stand right after it, the
length is the format's (R71), and bits 7..6 of the opcode are one less than it (R73). -/
def Sys2Proof.Laws.EncodingShape.Statement (i : Sys2Proof.Instr) : Prop :=
  (Sys2Proof.encode i).head? = some (Sys2Proof.opcodeMap i.mnemonic) ∧
  i.regOperands <+: (Sys2Proof.encode i).tail ∧
  (Sys2Proof.encode i).length = i.length ∧
  ((Sys2Proof.opcodeMap i.mnemonic).extractLsb 7 6).toNat + 1 = i.length

namespace Sys2Proof.Laws

theorem EncodingShape.hlt : EncodingShape.Statement .hlt := ⟨rfl, ⟨_, rfl⟩, rfl, opcodeMap_length _⟩
theorem EncodingShape.ret : EncodingShape.Statement .ret := ⟨rfl, ⟨_, rfl⟩, rfl, opcodeMap_length _⟩
theorem EncodingShape.push (a : Byte) : EncodingShape.Statement (.push a) := ⟨rfl, ⟨_, rfl⟩, rfl, opcodeMap_length _⟩
theorem EncodingShape.pop (a : Byte) : EncodingShape.Statement (.pop a) := ⟨rfl, ⟨_, rfl⟩, rfl, opcodeMap_length _⟩
theorem EncodingShape.prn (a : Byte) : EncodingShape.Statement (.prn a) := ⟨rfl, ⟨_, rfl⟩, rfl, opcodeMap_length _⟩
theorem EncodingShape.call (a : Byte) : EncodingShape.Statement (.call a) := ⟨rfl, ⟨_, rfl⟩, rfl, opcodeMap_length _⟩
theorem EncodingShape.jmp (a : Byte) : EncodingShape.Statement (.jmp a) := ⟨rfl, ⟨_, rfl⟩, rfl, opcodeMap_length _⟩
theorem EncodingShape.jeq (a : Byte) : EncodingShape.Statement (.jeq a) := ⟨rfl, ⟨_, rfl⟩, rfl, opcodeMap_length _⟩
theorem EncodingShape.jne (a : Byte) : EncodingShape.Statement (.jne a) := ⟨rfl, ⟨_, rfl⟩, rfl, opcodeMap_length _⟩
theorem EncodingShape.not (a : Byte) : EncodingShape.Statement (.not a) := ⟨rfl, ⟨_, rfl⟩, rfl, opcodeMap_length _⟩
theorem EncodingShape.ldi (a b : Byte) : EncodingShape.Statement (.ldi a b) := ⟨rfl, ⟨_, rfl⟩, rfl, opcodeMap_length _⟩
theorem EncodingShape.add (a b : Byte) : EncodingShape.Statement (.add a b) := ⟨rfl, ⟨_, rfl⟩, rfl, opcodeMap_length _⟩
theorem EncodingShape.sub (a b : Byte) : EncodingShape.Statement (.sub a b) := ⟨rfl, ⟨_, rfl⟩, rfl, opcodeMap_length _⟩
theorem EncodingShape.mul (a b : Byte) : EncodingShape.Statement (.mul a b) := ⟨rfl, ⟨_, rfl⟩, rfl, opcodeMap_length _⟩
theorem EncodingShape.div (a b : Byte) : EncodingShape.Statement (.div a b) := ⟨rfl, ⟨_, rfl⟩, rfl, opcodeMap_length _⟩
theorem EncodingShape.mod (a b : Byte) : EncodingShape.Statement (.mod a b) := ⟨rfl, ⟨_, rfl⟩, rfl, opcodeMap_length _⟩
theorem EncodingShape.cmp (a b : Byte) : EncodingShape.Statement (.cmp a b) := ⟨rfl, ⟨_, rfl⟩, rfl, opcodeMap_length _⟩
theorem EncodingShape.and (a b : Byte) : EncodingShape.Statement (.and a b) := ⟨rfl, ⟨_, rfl⟩, rfl, opcodeMap_length _⟩
theorem EncodingShape.or (a b : Byte) : EncodingShape.Statement (.or a b) := ⟨rfl, ⟨_, rfl⟩, rfl, opcodeMap_length _⟩
theorem EncodingShape.xor (a b : Byte) : EncodingShape.Statement (.xor a b) := ⟨rfl, ⟨_, rfl⟩, rfl, opcodeMap_length _⟩
theorem EncodingShape.shl (a b : Byte) : EncodingShape.Statement (.shl a b) := ⟨rfl, ⟨_, rfl⟩, rfl, opcodeMap_length _⟩
theorem EncodingShape.shr (a b : Byte) : EncodingShape.Statement (.shr a b) := ⟨rfl, ⟨_, rfl⟩, rfl, opcodeMap_length _⟩

end Sys2Proof.Laws
end

