-- ==== Sys2Proof/Tests/Slice0.lean ====
section
/-!
SUPPORT. Small tests, each of one step at most, with expected results from the vectors of spec/95_test_vectors.md and
the encodings of spec/30_encoding.md R72; and for each statement with hypotheses a witness that meets them.
-/

namespace Sys2Proof.Tests

open Sys2Proof Sys2Proof.Machine

/-- The reset state with r0, r1 set and three bytes at address 0. -/
def start (op a b r0 r1 : Byte) : State := placeWindow ((State.reset.setReg 0 r0).setReg 1 r1) op a b

/-- `start` with its window at another pc. -/
def startAt (pc : PcWord) (op a b r0 r1 : Byte) : State :=
  placeWindow (((State.reset.setReg 0 r0).setReg 1 r1).setPc pc) op a b

/-- What an outcome leaves of a state, seen through `f`. -/
def after {α : Type} (r : Result) (f : State → α) : Option α :=
  match r with
  | .next t => some (f t)
  | .fault _ => none
  | .refused _ => none

/-- What a step leaves of a state, seen through `f`. -/
def seen {α : Type} (s : State) (f : State → α) : Option α := after (step s) f

/-! ### Well-formedness -/

theorem test_wf_accepts_r7 :
    (Instr.push 7).wf = true ∧ (Instr.add 0 7).wf = true ∧ (Instr.ldi 7 255).wf = true ∧ Instr.hlt.wf = true := by
  decide
theorem test_wf_refuses_first_operand : (Instr.push 8).wf = false ∧
    (Instr.pop 8).wf = false ∧
    (Instr.prn 8).wf = false ∧
    (Instr.call 8).wf = false ∧
    (Instr.jmp 8).wf = false ∧
    (Instr.jeq 8).wf = false ∧
    (Instr.jne 8).wf = false ∧
    (Instr.not 8).wf = false ∧
    (Instr.ldi 8 0).wf = false ∧ (Instr.add 8 0).wf = false ∧
    (Instr.sub 8 0).wf = false ∧
    (Instr.mul 8 0).wf = false ∧
    (Instr.div 8 0).wf = false ∧
    (Instr.mod 8 0).wf = false ∧
    (Instr.cmp 8 0).wf = false ∧
    (Instr.and 8 0).wf = false ∧
    (Instr.or 8 0).wf = false ∧
    (Instr.xor 8 0).wf = false ∧
    (Instr.shl 8 0).wf = false ∧
    (Instr.shr 8 0).wf = false := by decide
theorem test_wf_refuses_second_operand : (Instr.add 0 8).wf = false ∧
    (Instr.sub 0 8).wf = false ∧
    (Instr.mul 0 8).wf = false ∧
    (Instr.div 0 8).wf = false ∧
    (Instr.mod 0 8).wf = false ∧
    (Instr.cmp 0 8).wf = false ∧
    (Instr.and 0 8).wf = false ∧
    (Instr.or 0 8).wf = false ∧
    (Instr.xor 0 8).wf = false ∧
    (Instr.shl 0 8).wf = false ∧
    (Instr.shr 0 8).wf = false := by decide

/-! ### Decoding: the words of R72, bit by bit -/

theorem test_decode_hlt : decode 0b00000001 0xFF 0xFF = .ok .hlt := by decide
theorem test_decode_ret : decode 0b00010001 0xFF 0xFF = .ok .ret := by decide
theorem test_decode_push : decode 0b01000101 0b00000110 0xFF = .ok (.push 6) := by decide
theorem test_decode_pop : decode 0b01000110 0b00000110 0xFF = .ok (.pop 6) := by decide
theorem test_decode_prn : decode 0b01000111 0b00000110 0xFF = .ok (.prn 6) := by decide
theorem test_decode_call : decode 0b01010000 0b00000110 0xFF = .ok (.call 6) := by decide
theorem test_decode_jmp : decode 0b01010100 0b00000110 0xFF = .ok (.jmp 6) := by decide
theorem test_decode_jeq : decode 0b01010101 0b00000110 0xFF = .ok (.jeq 6) := by decide
theorem test_decode_jne : decode 0b01010110 0b00000110 0xFF = .ok (.jne 6) := by decide
theorem test_decode_not : decode 0b01101001 0b00000110 0xFF = .ok (.not 6) := by decide
theorem test_decode_ldi : decode 0b10000010 0b00000010 0b00000101 = .ok (.ldi 2 5) := by decide
theorem test_decode_add : decode 0b10100000 0b00000010 0b00000101 = .ok (.add 2 5) := by decide
theorem test_decode_sub : decode 0b10100001 0b00000010 0b00000101 = .ok (.sub 2 5) := by decide
theorem test_decode_mul : decode 0b10100010 0b00000010 0b00000101 = .ok (.mul 2 5) := by decide
theorem test_decode_div : decode 0b10100011 0b00000010 0b00000101 = .ok (.div 2 5) := by decide
theorem test_decode_mod : decode 0b10100100 0b00000010 0b00000101 = .ok (.mod 2 5) := by decide
theorem test_decode_cmp : decode 0b10100111 0b00000010 0b00000101 = .ok (.cmp 2 5) := by decide
theorem test_decode_and : decode 0b10101000 0b00000010 0b00000101 = .ok (.and 2 5) := by decide
theorem test_decode_or : decode 0b10101010 0b00000010 0b00000101 = .ok (.or 2 5) := by decide
theorem test_decode_xor : decode 0b10101011 0b00000010 0b00000101 = .ok (.xor 2 5) := by decide
theorem test_decode_shl : decode 0b10101100 0b00000010 0b00000101 = .ok (.shl 2 5) := by decide
theorem test_decode_shr : decode 0b10101101 0b00000010 0b00000101 = .ok (.shr 2 5) := by decide
theorem test_decode_keeps_whole_operands : decode 0b10000010 0b11111111 0b10000001 = .ok (.ldi 255 129) := by decide
theorem test_decode_unknown :
    decode 0b00000000 0 0 = .error (.unknownOpcode 0) ∧ decode 0b01100101 0 0 = .error (.unknownOpcode 0x65) := by
  decide
theorem test_encode_order :
    encode (.ldi 3 42) = [0x82, 0x03, 0x2A] ∧ encode (.push 7) = [0x45, 0x07] ∧ encode .ret = [0x11] := by
  decide
theorem test_decodeBytes_truncated :
    decodeBytes [0x82, 0x03] = .error .truncated ∧ decodeBytes [] = .error .truncated := by
  decide
theorem test_table_word_order :
    decodeTableWord 24 0x2A0382 = some (.ldi 3 42) ∧ decodeTableWord 8 0x2A0382 = some (.ldi 0 0) ∧
    decodeTableWord 8 0xA5 = none := by decide
theorem test_first_step_runs_the_placed_word :
    step (State.reset.withFetchWord 8 0x01) = exec .hlt (State.reset.withFetchWord 8 0x01) := rfl

/-! ### One step: the vectors of 95_test_vectors.md -/

/-- V1. -/
theorem test_hlt_at_252 : seen (startAt 252 0x01 0 0 0 0) (fun t => (t.halted, t.status, t.pc)) =
      some (true, .halt, 252) := by
  decide
/-- V2. -/
theorem test_fetch_253 :
    seen (startAt 253 0x01 0 0 0 0) (fun t => (t.status, t.faultSpace, t.faultValue, t.faultPc, t.pc)) =
      some (.faultOutOfRange, 0, 255, 253, 253) := by
  decide
/-- V7. -/
theorem test_fetch_before_decode : seen (startAt 253 0xA5 0 0 0 0) (fun t => (t.status, t.faultValue)) =
      some (.faultOutOfRange, 255) := by
  decide
/-- V4. -/
theorem test_fetch_255 : seen (State.reset.setPc 255) (fun t => (t.status, t.faultValue, t.faultPc)) =
      some (.faultOutOfRange, 255, 255) := by
  decide
/-- V5. -/
theorem test_empty_memory : seen (State.reset) (fun t => (t.status, t.faultValue, t.faultPc, t.pc)) =
      some (.faultUnknownOpcode, 0x00, 0, 0) := by
  decide
/-- V9. -/
theorem test_ldi_bad_register :
    seen (start 0x82 8 5 0 0) (fun t => (t.status, t.faultSpace, t.faultValue, t.regs)) =
      some (.faultOutOfRange, 1, 8, State.reset.regs) := by decide
/-- V22. -/
theorem test_ldi_sp : seen (start 0x82 7 0x10 0 0) (fun t => (t.sp, t.pc)) = some (0x10, 3) := by decide
/-- V11. -/
theorem test_add_bad_registers : seen (start 0xA0 8 9 0 0) (fun t => (t.status, t.faultValue)) =
      some (.faultOutOfRange, 8) := by
  decide
/-- W7. -/
theorem test_add_wraps :
    seen (start 0xA0 0 1 0xFF 2) (fun t => (t.reg 0, t.reg 1, t.pc, t.fl)) = some (1, 2, 3, 0) := by
  decide
/-- SUB (3,5) -> 254. -/
theorem test_sub_wraps : seen (start 0xA1 0 1 3 5) (fun t => (t.reg 0, t.pc)) = some (254, 3) := by decide
/-- MUL (255,255) -> 1. -/
theorem test_mul_low_byte : seen (start 0xA2 0 1 255 255) (fun t => (t.reg 0, t.pc)) = some (1, 3) := by decide
/-- DIV (200,7) -> 28. -/
theorem test_div_rounds_down : seen (start 0xA3 0 1 200 7) (fun t => (t.reg 0, t.pc)) = some (28, 3) := by decide
/-- W8. -/
theorem test_div_by_zero :
    seen (start 0xA3 0 1 7 0) (fun t => (t.halted, t.status, t.faultPc, t.faultValue, t.reg 0, t.pc)) =
      some (true, .faultDivideByZero, 0, 0, 7, 0) := by
  decide
/-- MOD (200,7) -> 4. -/
theorem test_mod : seen (start 0xA4 0 1 200 7) (fun t => (t.reg 0, t.pc)) = some (4, 3) := by decide
/-- MOD (3,0). -/
theorem test_mod_by_zero : seen (start 0xA4 0 1 3 0) (fun t => (t.halted, t.status, t.reg 0)) =
      some (true, .faultModuloByZero, 3) := by
  decide
/-- AND. -/
theorem test_and : seen (start 0xA8 0 1 0xF0 0x3C) (fun t => (t.reg 0, t.pc)) = some (0x30, 3) := by decide
/-- OR. -/
theorem test_or : seen (start 0xAA 0 1 0xF0 0x0F) (fun t => (t.reg 0, t.pc)) = some (0xFF, 3) := by decide
/-- XOR r1, r1 -> 0. -/
theorem test_xor_same : seen (start 0xAB 1 1 0 0x5C) (fun t => (t.reg 1, t.pc)) = some (0, 3) := by decide
/-- NOT 0xA5 -> 0x5A. -/
theorem test_not : seen (start 0x69 0 0 0xA5 0) (fun t => (t.reg 0, t.pc)) = some (0x5A, 2) := by decide
/-- SHL (1,7) -> 0x80. -/
theorem test_shl_7 : seen (start 0xAC 0 1 1 7) (fun t => t.reg 0) = some 0x80 := by decide
/-- SHL (1,8) -> 0, pinning SHIFT_GE8. -/
theorem test_shl_8 : seen (start 0xAC 0 1 1 8) (fun t => t.reg 0) = some 0 := by decide
/-- SHR (0x80,1) -> 0x40. -/
theorem test_shr_logical : seen (start 0xAD 0 1 0x80 1) (fun t => t.reg 0) = some 0x40 := by decide
/-- SHR (0x80,9) -> 0, pinning SHIFT_GE8. -/
theorem test_shr_9 : seen (start 0xAD 0 1 0x80 9) (fun t => t.reg 0) = some 0 := by decide
/-- CMP (0x80,0x7F). -/
theorem test_cmp_unsigned :
    seen (start 0xA7 0 1 0x80 0x7F) (fun t => (t.fl, t.reg 0, t.pc)) = some (0x02, 0x80, 3) := by
  decide
/-- CMP (5,6). -/
theorem test_cmp_less : seen (start 0xA7 0 1 5 6) (fun t => t.fl) = some 0x04 := by decide
/-- R111, example. -/
theorem test_prn : seen (start 0x47 0 0 8 0) (fun t => (t.output, t.pc, t.reg 0)) = some ([8], 2, 8) := by decide
/-- R43. -/
theorem test_out_port :
    outPort Pins.run (start 0x47 0 0 8 0) = some 8 ∧ outPort Pins.hold (start 0x47 0 0 8 0) = none ∧
    outPort Pins.run (start 0x82 0 8 0 0) = none := by decide
/-- V30. -/
theorem test_push : seen (start 0x45 0 0 5 0) (fun t => (t.sp, t.mem.read 0xF3, t.pc)) = some (0xF3, 5, 2) := by
  decide
/-- V31. -/
theorem test_push_sp : seen (start 0x45 7 0 0 0) (fun t => (t.sp, t.mem.read 0xF3)) = some (0xF3, 0xF3) := by decide
/-- V35. -/
theorem test_pop :
    seen (((start 0x46 1 0 0 0).setSp 0xF3).setMem (((start 0x46 1 0 0 0).mem).write 0xF3 5))
      (fun t => (t.reg 1, t.sp, t.mem.read 0xF3)) = some (5, 0xF4, 5) := by decide
/-- V37. -/
theorem test_pop_outside :
    seen ((start 0x46 0 0 9 0).setSp 255) (fun t => (t.status, t.faultValue, t.reg 0, t.sp)) =
      some (.faultOutOfRange, 255, 9, 255) := by decide
/-- V40. -/
theorem test_call :
    seen (startAt 6 0x50 1 0 0 11) (fun t => (t.sp, t.mem.read 0xF3, t.pc)) = some (0xF3, 8, 11) := by decide
/-- V42. -/
theorem test_call_outside : seen ((start 0x50 1 0 0 5).setSp 0) (fun t => (t.status, t.faultValue, t.pc, t.sp)) =
      some (.faultOutOfRange, 255, 0, 0) := by
  decide
/-- V44. -/
theorem test_ret_empty : seen (start 0x11 0 0 0 0) (fun t => (t.pc, t.sp)) = some (0, 0xF5) := by decide
/-- V48. -/
theorem test_jmp_255 : seen (start 0x54 0 0 0xFF 0) (fun t => (t.pc, t.halted)) = some (255, false) := by decide
/-- V49. -/
theorem test_jeq_taken : seen ((startAt 9 0x55 0 0 0x20 0).setFl 1) (fun t => t.pc) = some 0x20 := by decide
/-- V51. -/
theorem test_jeq_greater : seen ((startAt 9 0x55 0 0 0x20 0).setFl 2) (fun t => t.pc) = some 11 := by decide
/-- V53. -/
theorem test_jne_taken : seen (startAt 9 0x56 0 0 0x20 0) (fun t => t.pc) = some 0x20 := by decide
/-- V14. -/
theorem test_jne_checks_register : seen ((start 0x56 9 0 0 0).setFl 1) (fun t => (t.status, t.faultValue)) =
      some (.faultOutOfRange, 9) := by
  decide
/-- R40, R45: the register is dbg_addr[2:0]. -/
theorem test_observe :
    observe State.reset 1 7 = 0xF4 ∧ observe State.reset 1 15 = 0xF4 ∧ observe State.reset 0 255 = 0 := by
  decide
/-- R193. -/
theorem test_power_on_without_reset : powerOn [Pins.run] = .refused .beforeFirstReset := rfl

/-! ### Witnesses: values that meet the hypotheses of each statement -/

/-- A running core with a fetchable window. -/
theorem fetches_start (op a b r0 r1 : Byte) : (start op a b r0 r1).Fetches op a b := by
  refine ⟨rfl, show (0 : Nat) + 2 < 255 by decide, ?_, ?_, ?_⟩ <;>
    simp [start, placeWindow, pokeCell, Memory.read_write, memSize, State.setReg, State.setMem, State.reset]

theorem witness_LdiLoadsTheImmediate : (7 : Byte).toNat = (7 : RegIdx).val := by decide
theorem witness_JmpSetsThePc : (7 : Byte).toNat = (7 : RegIdx).val := by decide
theorem witness_NotComplementsTheByte : (7 : Byte).toNat = (7 : RegIdx).val := by decide
theorem witness_AddWritesTheSumModulo256 :
    (7 : Byte).toNat = (7 : RegIdx).val ∧ (0 : Byte).toNat = (0 : RegIdx).val := by
  decide
theorem witness_SubWritesTheDifferenceModulo256 :
    (7 : Byte).toNat = (7 : RegIdx).val ∧ (0 : Byte).toNat = (0 : RegIdx).val := by
  decide
theorem witness_MulWritesTheLowByteOfTheProduct :
    (7 : Byte).toNat = (7 : RegIdx).val ∧ (0 : Byte).toNat = (0 : RegIdx).val := by
  decide
theorem witness_AndIsBitwise :
    (7 : Byte).toNat = (7 : RegIdx).val ∧ (0 : Byte).toNat = (0 : RegIdx).val := by decide
theorem witness_OrIsBitwise : (7 : Byte).toNat = (7 : RegIdx).val ∧ (0 : Byte).toNat = (0 : RegIdx).val := by decide
theorem witness_XorIsBitwise :
    (7 : Byte).toNat = (7 : RegIdx).val ∧ (0 : Byte).toNat = (0 : RegIdx).val := by decide
theorem witness_ShlShiftsLeftAndGivesZeroFromEightOn :
    (7 : Byte).toNat = (7 : RegIdx).val ∧ (0 : Byte).toNat = (0 : RegIdx).val := by
  decide
theorem witness_ShrShiftsRightAndGivesZeroFromEightOn :
    (7 : Byte).toNat = (7 : RegIdx).val ∧ (0 : Byte).toNat = (0 : RegIdx).val := by
  decide
theorem witness_CmpWritesTheFlags : (7 : Byte).toNat = (7 : RegIdx).val ∧ (0 : Byte).toNat = (0 : RegIdx).val := by
  decide
theorem witness_PrnEmitsTheRegister :
    (1 : Byte).toNat = (1 : RegIdx).val ∧ (start 0x47 1 1 8 9).Fetches 0x47 1 1 ∧ Pins.run.rst = false :=
  ⟨rfl, fetches_start _ _ _ _ _, rfl⟩
theorem witness_HltHaltsAtItsOwnAddress :
    (startAt 252 0x01 0 0 0 0).Fetches 0x01 0 0 := ⟨rfl, by decide, by decide, by decide, by decide⟩
theorem witness_HltHaltsAtItsOwnAddress_edges :
    (State.reset.setPc 253).halted = false ∧ (State.reset.setPc 253).pc.toNat + 2 = memSize ∧
    (State.reset.setPc 254).pc.toNat + 1 = memSize := by decide
theorem witness_PushStoresBelowTheStackPointer :
    (7 : Byte).toNat = (7 : RegIdx).val ∧ ((State.reset.setSp 255).sp - 1).toNat < memSize ∧
    memSize ≤ ((State.reset.setSp 0).sp - 1).toNat := by decide
theorem witness_PopLoadsFromTheStackPointer :
    (7 : Byte).toNat = (7 : RegIdx).val ∧ (0 : Byte).toNat = (0 : RegIdx).val ∧ (0 : RegIdx) ≠ 7 ∧
    (State.reset.setSp 254).sp.toNat < memSize ∧ memSize ≤ (State.reset.setSp 255).sp.toNat := by decide
theorem witness_CallPushesTheReturnAddressAndJumps :
    (7 : Byte).toNat = (7 : RegIdx).val ∧ (((State.reset.setPc 252).setSp 255).sp - 1).toNat < memSize ∧
    ((State.reset.setPc 252).setSp 255).fetchable ∧ memSize ≤ (((State.reset.setPc 252).setSp 0).sp - 1).toNat :=
  by decide
theorem witness_RetJumpsToThePoppedByte :
    (State.reset.setSp 254).sp.toNat < memSize ∧ memSize ≤ (State.reset.setSp 255).sp.toNat := by
  decide
theorem witness_JeqJumpsWhenEqual :
    (7 : Byte).toNat = (7 : RegIdx).val ∧ (State.reset.setFl 1).fl.toNat % 2 = 1 ∧
    (State.reset.setFl 2).fl.toNat % 2 = 0 ∧ (State.reset.setFl 4).fl.toNat % 2 = 0 := by decide
theorem witness_JneJumpsWhenNotEqual :
    (7 : Byte).toNat = (7 : RegIdx).val ∧ (State.reset.setFl 1).fl.toNat % 2 = 1 ∧
    (State.reset.setFl 2).fl.toNat % 2 = 0 ∧ (State.reset.setFl 4).fl.toNat % 2 = 0 := by decide
theorem witness_DivWritesTheQuotientOrFaults :
    (7 : Byte).toNat = (7 : RegIdx).val ∧ (0 : Byte).toNat = (0 : RegIdx).val ∧ (start 0 0 0 1 1).reg 0 ≠ 0 ∧
    (start 0 0 0 0 1).reg 0 = 0 := by decide
theorem witness_ModWritesTheRemainderOrFaults :
    (7 : Byte).toNat = (7 : RegIdx).val ∧ (0 : Byte).toNat = (0 : RegIdx).val ∧ (start 0 0 0 1 1).reg 0 ≠ 0 ∧
    (start 0 0 0 0 1).reg 0 = 0 := by decide
theorem witness_EncodingInvertsDecoding :
    decodeBytes [0x82, 0x03, 0x2A, 0x01] = .ok (.ldi 3 42, [0x01]) := by decide
theorem witness_BytesBeyondTheLengthAreIgnored :
    decode 0x45 3 0 = .ok (.push 3) ∧ (Instr.push 3).length = 2 ∧ decode 0x11 0 0 = .ok .ret ∧
    Instr.ret.length = 1 ∧ decode 0x82 3 1 = .ok (.ldi 3 1) ∧ (Instr.ldi 3 1).length = 3 := by decide
theorem witness_UnknownOpcodesFault :
    (start 0xA5 1 1 0 0).Fetches 0xA5 1 1 ∧ (0xA5 : Byte) ∉ opcodes ∧ (0xAD : Byte) ∈ opcodes :=
  ⟨fetches_start _ _ _ _ _, by decide, by decide⟩
theorem witness_EveryStepFetchesThreeBytes : (start 0xA0 1 1 0 0).halted = false ∧
    (start 0xA0 1 1 0 0).pc.toNat + 2 < memSize ∧
    decode ((start 0xA0 1 1 0 0).mem.read 0) ((start 0xA0 1 1 0 0).mem.read 1) ((start 0xA0 1 1 0 0).mem.read 2) =
      .ok (.add 1 1) ∧
    (State.reset.setPc 252).pc.toNat + 2 < memSize ∧ (State.reset.setPc 253).halted = false ∧
    memSize ≤ (State.reset.setPc 253).pc.toNat + 2 ∧ ¬ memSize ≤ (State.reset.setPc 253).pc.toNat + 1 ∧
    memSize ≤ (State.reset.setPc 254).pc.toNat + 1 ∧ ¬ memSize ≤ (State.reset.setPc 254).pc.toNat ∧
    memSize ≤ (State.reset.setPc 255).pc.toNat := by decide
theorem witness_StepRunsTheDecodedInstruction :
    (start 0xA0 1 9 0 0).Fetches 0xA0 1 9 ∧ decode 0xA0 1 9 = .ok (.add 1 9) :=
  ⟨fetches_start _ _ _ _ _, by decide⟩
theorem witness_RegisterOperandsAreCheckedInOrder :
    (Instr.add 8 9).regOperands.find? (fun x => decide (8 ≤ x.toNat)) = some 8 ∧
    (Instr.add 7 255).regOperands.find? (fun x => decide (8 ≤ x.toNat)) = some 255 ∧
    (Instr.jeq 8).regOperands.find? (fun x => decide (8 ≤ x.toNat)) = some 8 := by decide
/-- One state for each fault of the priority order, each with the faults after it where they can stand together. -/
theorem witness_StepReportsTheFirstFault :
    [State.reset.setPc 255, State.reset.setPc 254, State.reset.setPc 253, start 0xA5 9 9 0 0, start 0xA3 8 9 0 0,
      start 0xA3 0 9 0 0, start 0xA3 0 1 7 0, start 0xA4 0 1 7 0, (start 0x45 0 0 0 0).setSp 0,
      (start 0x50 0 0 0 0).setSp 0, (start 0x46 0 0 0 0).setSp 255, (start 0x11 0 0 0 0).setSp 255,
      start 0x82 0 9 0 0, start 0x01 9 9 0 0].map priorityFault =
    [some (.faultOutOfRange, 0, 255), some (.faultOutOfRange, 0, 255), some (.faultOutOfRange, 0, 255),
      some (.faultUnknownOpcode, 0, 0xA5), some (.faultOutOfRange, 1, 8), some (.faultOutOfRange, 1, 9),
      some (.faultDivideByZero, 0, 0), some (.faultModuloByZero, 0, 0), some (.faultOutOfRange, 0, 255),
      some (.faultOutOfRange, 0, 255), some (.faultOutOfRange, 0, 255), some (.faultOutOfRange, 0, 255),
      none, none] := by decide
theorem witness_FaultingStepsCommitNothing :
    (start 0xA3 0 1 7 0).halted = false ∧ (start 0xA3 0 1 7 0).status = .running ∧
    seen (start 0xA3 0 1 7 0) (fun t => t.status) = some .faultDivideByZero := by decide
theorem witness_HaltedCoreChangesNothing :
    State.reset.halt.halted = true ∧ ∀ p ∈ [Pins.run, Pins.run], p.rst = false := by
  decide
theorem witness_HaltedIsSetByHltAndFaultsAndClearedByReset :
    after (clockEdge false Pins.hold State.reset.halt) (fun t => t.halted) = some false ∧
    after (clockEdge false Pins.run (start 0x01 0 0 0 0)) (fun t => t.halted) = some true ∧
    (priorityFault State.reset).isSome = true := by decide
theorem witness_DefaultAdvanceIsExact :
    (startAt 252 0x82 1 1 0 0).Fetches 0x82 1 1 ∧ decode 0x82 1 1 = .ok (.ldi 1 1) ∧
    seen (startAt 252 0x82 1 1 0 0) (fun t => (t.halted, t.pc)) = some (false, 255) :=
  ⟨⟨rfl, by decide, by decide, by decide, by decide⟩, by decide, by decide⟩
theorem witness_FlagsAreWrittenByCmpAndReadByBitZero :
    step (start 0xA7 0 1 5 6) = exec (.cmp 0 1) (start 0xA7 0 1 5 6) ∧
    seen (start 0xA7 0 1 5 6) (fun t => t.fl) ≠ some (start 0xA7 0 1 5 6).fl ∧
    (∃ t, exec (.jeq 0) State.reset = .next t) ∧ (0xFE : Byte).toNat % 2 = State.reset.fl.toNat % 2 :=
  ⟨rfl, by decide, exec_total _ _, by decide⟩
theorem witness_MemoryIsReachedOnlyThroughTheStack :
    step (start 0x45 0 0 5 0) = exec (.push 0) (start 0x45 0 0 5 0) ∧
    seen (start 0x45 0 0 5 0) (fun t => t.mem.read 0xF3) ≠ some ((start 0x45 0 0 5 0).mem.read 0xF3) ∧
    (∃ t, exec .ret State.reset = .next t) ∧
    Memory.read [(5, 1)] State.reset.sp.toNat = State.reset.mem.read State.reset.sp.toNat :=
  ⟨rfl, by decide, exec_total _ _, by decide⟩
theorem witness_OutputGrowsOnlyByPrn :
    seen (start 0x47 0 0 8 0) (fun t => t.output) ≠ some (start 0x47 0 0 8 0).output ∧
    seen (start 0x47 0 0 8 0) (fun t => t.output) = some [8] := by decide
theorem witness_RegistersChangeOnlyAsNamed :
    seen (start 0x46 0 0 9 0) (fun t => (t.reg 0, t.reg 7)) = some (0, 0xF5) ∧
    ((start 0x46 0 0 9 0).reg 0, (start 0x46 0 0 9 0).reg 7) = (9, 0xF4) ∧
    step (start 0x46 0 0 9 0) = exec (.pop 0) (start 0x46 0 0 9 0) := ⟨by decide, by decide, rfl⟩
theorem witness_PushThenPopMovesTheValue :
    (0 : Byte).toNat = (0 : RegIdx).val ∧ (6 : Byte).toNat = (6 : RegIdx).val ∧ (0 : RegIdx) ≠ 7 ∧
    (6 : RegIdx) ≠ 7 ∧ 1 ≤ (State.reset.setSp 1).sp.toNat ∧ (State.reset.setSp 1).sp.toNat ≤ memSize ∧
    1 ≤ (State.reset.setSp 255).sp.toNat ∧ (State.reset.setSp 255).sp.toNat ≤ memSize := by decide
theorem witness_CallThenRetReturns :
    (7 : Byte).toNat = (7 : RegIdx).val ∧ ((State.reset.setPc 252).setSp 1).fetchable ∧
    ((State.reset.setPc 252).setSp 255).fetchable ∧ 1 ≤ ((State.reset.setPc 252).setSp 1).sp.toNat ∧
    ((State.reset.setPc 252).setSp 1).sp.toNat ≤ memSize ∧ 1 ≤ ((State.reset.setPc 252).setSp 255).sp.toNat ∧
    ((State.reset.setPc 252).setSp 255).sp.toNat ≤ memSize := by decide
theorem witness_StackEntriesAreUntagged :
    (7 : Byte).toNat = (7 : RegIdx).val ∧ (0 : Byte).toNat = (0 : RegIdx).val ∧ (0 : RegIdx) ≠ 7 ∧
    ((State.reset.setPc 252).setSp 1).fetchable ∧ ((State.reset.setPc 252).setSp 255).fetchable ∧
    1 ≤ ((State.reset.setPc 252).setSp 1).sp.toNat ∧ ((State.reset.setPc 252).setSp 1).sp.toNat ≤ memSize ∧
    1 ≤ ((State.reset.setPc 252).setSp 255).sp.toNat ∧ ((State.reset.setPc 252).setSp 255).sp.toNat ≤ memSize :=
  by decide
theorem witness_CompareThenConditionalJump :
    (7 : Byte).toNat = (7 : RegIdx).val ∧ (0 : Byte).toNat = (0 : RegIdx).val ∧
    (1 : Byte).toNat = (1 : RegIdx).val ∧ (start 0 0 0 5 5).reg 0 = (start 0 0 0 5 5).reg 1 ∧
    (start 0 0 0 5 6).reg 0 ≠ (start 0 0 0 5 6).reg 1 := by decide
theorem witness_JumpOutsideMemoryFaultsAtTheNextFetch :
    (start 0x54 1 1 0 0xFF).Fetches 0x54 1 1 ∧ (1 : Byte).toNat = (1 : RegIdx).val ∧
    memSize ≤ ((start 0x54 1 1 0 0xFF).reg 1).toNat := ⟨fetches_start _ _ _ _ _, rfl, by decide⟩
theorem witness_PushedByteIsFetchedByTheNextStep :
    ((start 0x45 1 1 0 0x01).setSp 3).Fetches 0x45 1 1 ∧ (1 : Byte).toNat = (1 : RegIdx).val ∧
    (((start 0x45 1 1 0 0x01).setSp 3).sp - 1).toNat = ((start 0x45 1 1 0 0x01).setSp 3).pc.toNat + 2 ∧
    ((start 0x45 1 1 0 0x01).setSp 3).pc.toNat + 4 < memSize :=
  ⟨⟨rfl, by decide, by decide, by decide, by decide⟩, rfl, by decide, by decide⟩
/-- The writes at pc and at pc + 1, the second R62's own example (SP = pc + 2), of r7 as well. -/
theorem witness_PushedByteIsFetchedByTheNextStep_operands :
    ((start 0x45 7 1 0 0).setSp 1).Fetches 0x45 7 1 ∧ ((start 0x45 7 1 0 0).setSp 2).Fetches 0x45 7 1 ∧
    (7 : Byte).toNat = (7 : RegIdx).val ∧
    (((start 0x45 7 1 0 0).setSp 1).sp - 1).toNat = ((start 0x45 7 1 0 0).setSp 1).pc.toNat ∧
    (((start 0x45 7 1 0 0).setSp 2).sp - 1).toNat = ((start 0x45 7 1 0 0).setSp 2).pc.toNat + 1 :=
  ⟨⟨rfl, by decide, by decide, by decide, by decide⟩, ⟨rfl, by decide, by decide, by decide, by decide⟩,
    rfl, by decide, by decide⟩
/-- The states of the later fetches: one with its opcode, one with an operand at the address 2 written to. -/
theorem witness_PushedByteIsFetchedByTheNextStep_later :
    (((start 0x45 1 1 0 0x01).setMem [(0, 0x45), (1, 1), (2, 0x01)]).setPc 2).Fetches 0x01 0 0 ∧
    (((start 0x45 1 1 0 0x01).setMem [(0, 0x45), (1, 1), (2, 0x01)]).setPc 1).Fetches 1 0x01 0 ∧
    (((start 0x45 1 1 0 0x01).setMem [(0, 0x45), (1, 1), (2, 0x01)]).setPc 0).Fetches 0x45 1 0x01 ∧
    seen ((start 0x45 1 1 0 0x01).setSp 3) (fun t => t.mem) = some [(0, 0x45), (1, 1), (2, 0x01)] :=
  ⟨⟨rfl, by decide, by decide, by decide, by decide⟩, ⟨rfl, by decide, by decide, by decide, by decide⟩,
    ⟨rfl, by decide, by decide, by decide, by decide⟩, by decide⟩
theorem witness_StepWithoutAFaultCommits :
    (start 0x45 1 0 0 0).halted = false ∧ priorityFault (start 0x45 1 0 0 0) = none ∧
    decode 0x45 1 0 = .ok (.push 1) ∧
    (start 0x01 9 9 0 0).halted = false ∧ priorityFault (start 0x01 9 9 0 0) = none ∧
    decode 0x01 9 9 = .ok .hlt := by
  exact ⟨by decide, by decide, rfl, by decide, by decide, rfl⟩
/-- A state other than reset that meets the invariant: FL set by a CMP, a program in memory. -/
theorem inv_start : ((start 0xA3 0 1 7 0).setFl 4).Inv :=
  ⟨by decide, by decide, by decide, ⟨rfl, rfl⟩, fun _ => rfl, fun h => absurd rfl h⟩
/-- A faulted state that meets the invariant. -/
theorem inv_faulted : ((State.reset.setPc 9).enterFault (.outOfRangeRegister 8)).Inv :=
  ⟨by decide, by decide, by decide, .inr ⟨rfl, by decide, by decide⟩, fun h => by simp [Raise.status] at h,
    fun _ _ => rfl⟩
theorem witness_EveryStepKeepsTheInvariant :
    ((start 0xA3 0 1 7 0).setFl 4).Inv ∧
    seen ((start 0xA3 0 1 7 0).setFl 4) (fun t => t.status) = some .faultDivideByZero :=
  ⟨inv_start, by decide⟩
theorem witness_HltHaltsAtItsOwnAddress_invariant :
    ((start 0xA3 0 1 7 0).setFl 4).Inv ∧ ((start 0xA3 0 1 7 0).setFl 4).halted = false := ⟨inv_start, rfl⟩
theorem witness_ShiftParameterDecidesFromEightOn : 8 ≤ (8 : Byte).toNat ∧ 8 ≤ (255 : Byte).toNat := by decide
theorem witness_DecodingFollowsTheOpcodeMap :
    (∀ m m' : Mnemonic, opcodeMap m = opcodeMap m' → m = m') ∧ opcodeMap .hlt = 0x01 ∧ ∀ m, opcodeMap m ≠ 0x00 := by
  refine ⟨fun m m' h => ?_, rfl, fun m => ?_⟩
  · cases m <;> cases m' <;> first | rfl | exact absurd h (by decide)
  · cases m <;> decide
theorem witness_StatusWordTellsWhyTheCoreHalted :
    ((start 0xA3 0 1 7 0).setFl 4).Inv ∧ ((State.reset.setPc 9).enterFault (.outOfRangeRegister 8)).Inv :=
  ⟨inv_start, inv_faulted⟩
theorem witness_EveryReachedStateMeetsTheInvariant :
    after (powerOn [Pins.hold, Pins.load 0 0x01, Pins.run]) (fun t => (t.halted, t.mem)) =
      some (true, [(0, 0x01)]) := by decide
theorem witness_EveryClockEdgeKeepsTheInvariant :
    ((start 0xA3 0 1 7 0).setFl 4).Inv ∧
    after (clockEdge false Pins.run ((start 0xA3 0 1 7 0).setFl 4)) (fun t => t.status) =
      some .faultDivideByZero ∧
    after (clockEdge false Pins.hold ((start 0xA3 0 1 7 0).setFl 4)) (fun t => t.mem) = some [] ∧
    after (clockEdge true (Pins.load 254 1) ((start 0xA3 0 1 7 0).setFl 4)) (fun t => t.mem.read 254) =
      some 1 :=
  ⟨inv_start, by decide, by decide, by decide⟩
theorem witness_ResetEdgeSetsTheResetValues : Pins.hold.rst = true ∧ (Pins.load 254 1).rst = true ∧
    Memory.read (loadPort (Pins.load 254 1) []) 254 ≠ Memory.read [] 254 := by decide
theorem witness_LoadPortWritesOnlyInReset :
    (Pins.load 254 1).loadWe = true ∧ (Pins.load 254 1).rst = true ∧
    (Pins.load 254 1).loadAddr.toNat < memSize ∧ memSize ≤ (Pins.load 255 1).loadAddr.toNat ∧
    (Pins.mk false true 254 1).rst = false ∧ (Pins.mk false true 254 1).loadWe = true := by decide
theorem witness_OutputPortShowsThePrnThatCommits : outPort Pins.run (start 0x47 0 0 8 0) = some 8 := by decide
theorem witness_ObservationPortShowsTheSelectedValue :
    (254 : Byte).toNat < memSize ∧ memSize ≤ (255 : Byte).toNat ∧
    ((255 : Byte).extractLsb 2 0).toNat = (7 : RegIdx).val := by decide
theorem witness_BootPlacesTheImage :
    (List.replicate 255 255).length ≤ memSize ∧ (∀ v ∈ List.replicate 255 255, v < 256) ∧
    ¬ (List.replicate 256 0).length ≤ memSize ∧ ¬ ∀ v ∈ [256], v < 256 := by
  refine ⟨?_, fun v hv => ?_, ?_, by decide⟩
  · rw [List.length_replicate]; decide
  · rw [List.eq_of_mem_replicate hv]; decide
  · rw [List.length_replicate]; decide

end Sys2Proof.Tests
end

section
/-!
The decoder under any opcode map (spec/00_scope.md R6, spec/30_encoding.md R74): its search finds the mnemonic whose
byte it is given, or none. Laws/Decode.lean has the case of this hardware's map.
-/

namespace Sys2Proof

/-- The search answers only with a mnemonic that has the byte. -/
theorem map_eq_of_decodeOpcode_eq_some {map : OpcodeMap} {op : Byte} {m : Mnemonic}
    (h : decodeOpcode map op = some m) : map m = op := by
  simpa using List.find?_some h

/-- The search fails exactly on the bytes the map does not use. -/
theorem decodeOpcode_eq_none_iff {map : OpcodeMap} {op : Byte} :
    decodeOpcode map op = none ↔ ∀ m, map m ≠ op := by
  simp [decodeOpcode, Mnemonic.mem_all]

/-- With distinct bytes, the first mnemonic that has the byte is the only one. -/
theorem decodeOpcode_map_of_injective {map : OpcodeMap} (hinj : ∀ m m' : Mnemonic, map m = map m' → m = m')
    (m : Mnemonic) : decodeOpcode map (map m) = some m := by
  cases h : decodeOpcode map (map m) with
  | none => exact absurd rfl (decodeOpcode_eq_none_iff.mp h m)
  | some m' => rw [hinj m' m (map_eq_of_decodeOpcode_eq_some h)]

theorem decodeWith_of_decodeOpcode_eq_some {map : OpcodeMap} {op : Byte} {m : Mnemonic}
    (h : decodeOpcode map op = some m) (a b : Byte) : decodeWith map op a b = .ok (m.instr a b) := by
  simp [decodeWith, h]

theorem decodeWith_of_decodeOpcode_eq_none {map : OpcodeMap} {op : Byte}
    (h : decodeOpcode map op = none) (a b : Byte) : decodeWith map op a b = .error (.unknownOpcode op) := by
  simp [decodeWith, h]

/-- Settles O25: the search finds the one mnemonic that has the byte, or fails because none has it. -/
theorem decodingFollowsTheOpcodeMap : Obligations.DecodingFollowsTheOpcodeMap := by
  intro map hinj op a b
  refine ⟨?_, fun hunused => ?_⟩
  · rintro m rfl
    exact decodeWith_of_decodeOpcode_eq_some (decodeOpcode_map_of_injective hinj m) a b
  · exact decodeWith_of_decodeOpcode_eq_none (decodeOpcode_eq_none_iff.mpr hunused) a b

end Sys2Proof
end

section
/-!
The shifts (spec/00_scope.md R7, spec/45_alu_logic.md R154, R155): the distance each value of SHIFT_GE8 gives, and the
result at a distance.
-/

namespace Sys2Proof.Machine

theorem shiftAmount_zero_of_lt {n : Byte} (h : n.toNat < 8) : shiftAmount .zero n = some n.toNat := if_pos h

theorem shiftAmount_zero_of_ge {n : Byte} (h : 8 ≤ n.toNat) : shiftAmount .zero n = none := if_neg (by omega)

theorem shiftAmount_mask (n : Byte) : shiftAmount .mask n = some (n.toNat % 8) := rfl

/-- A shift left by `k` multiplies by 2 ^ k and drops what leaves bit 7. -/
theorem aluShl_toNat_of_some {mode : ShiftGe8} {n : Byte} {k : Nat} (h : shiftAmount mode n = some k) (x : Byte) :
    (aluShl mode x n).toNat = x.toNat * 2 ^ k % 256 := by
  simp [aluShl, h, Nat.shiftLeft_eq]

/-- A shift right by `k` divides by 2 ^ k, rounding down: zeros enter at bit 7. -/
theorem aluShr_toNat_of_some {mode : ShiftGe8} {n : Byte} {k : Nat} (h : shiftAmount mode n = some k) (x : Byte) :
    (aluShr mode x n).toNat = x.toNat / 2 ^ k := by
  simp [aluShr, h, Nat.shiftRight_eq_div_pow]

theorem aluShl_of_none {mode : ShiftGe8} {n : Byte} (h : shiftAmount mode n = none) (x : Byte) :
    aluShl mode x n = 0 := by
  simp [aluShl, h]

theorem aluShr_of_none {mode : ShiftGe8} {n : Byte} (h : shiftAmount mode n = none) (x : Byte) :
    aluShr mode x n = 0 := by
  simp [aluShr, h]

/-- Settles O22: ZERO has no distance from 8 on, and MASK always has the amount modulo 8. -/
theorem shiftParameterDecidesFromEightOn : Obligations.ShiftParameterDecidesFromEightOn := by
  refine ⟨rfl, fun x n => ⟨fun h => ?_, ?_, ?_⟩⟩
  · have hnone := shiftAmount_zero_of_ge h
    exact ⟨aluShl_of_none hnone x, aluShr_of_none hnone x⟩
  · exact aluShl_toNat_of_some (shiftAmount_mask n) x
  · exact aluShr_toNat_of_some (shiftAmount_mask n) x

end Sys2Proof.Machine
end

section
/-!
The step seen as a whole: the opcodes of `Safety.lean` are those of the map, the three ends of fetch and decode, and
what a window that decodes runs (spec/30_encoding.md R76, spec/40_cycle.md R91, R92, R100).
-/

namespace Sys2Proof.Machine

/-- The list of opcodes and the opcode map hold the same bytes (R72). -/
theorem mem_opcodes_iff {op : Byte} : op ∈ opcodes ↔ ∃ m, op = opcodeMap m := by
  constructor
  · intro h
    have hall : ∀ x ∈ opcodes, (decodeOpcode opcodeMap x).isSome := by decide
    obtain ⟨m, hm⟩ := Option.isSome_iff_exists.mp (hall op h)
    exact ⟨m, (opcodeMap_of_decodeOpcode hm).symm⟩
  · rintro ⟨m, rfl⟩
    cases m <;> decide

/-- A window that reaches past memory lacks address MEM_SIZE first, whatever the PC (R26, R91). -/
theorem fetchDecode_of_not_fetchable_eq_memSize {s : State} (h : ¬ s.fetchable) :
    fetchDecode s = .error (.outOfRangeMemory memSize) := by
  have hpc : s.pc.toNat < 256 := s.pc.isLt
  have hout : ¬ s.pc.toNat + 2 < 255 := h
  rw [fetchDecode_of_not_fetchable h]
  congr 2
  unfold memSize
  split_ifs <;> omega

/-- The three ends of fetch and decode (R91, R92). -/
theorem fetchDecode_cases (s : State) :
    (¬ s.fetchable ∧ fetchDecode s = .error (.outOfRangeMemory memSize)) ∨
    (s.fetchable ∧ s.mem.read s.pc.toNat ∉ opcodes ∧
      fetchDecode s = .error (.unknownOpcode (s.mem.read s.pc.toNat))) ∨
    (s.fetchable ∧ ∃ m, s.mem.read s.pc.toNat = opcodeMap m ∧
      fetchDecode s = .ok (m.instr (s.mem.read (s.pc.toNat + 1)) (s.mem.read (s.pc.toNat + 2)))) := by
  by_cases hf : s.fetchable
  · rcases decode_cases (s.mem.read s.pc.toNat) (s.mem.read (s.pc.toNat + 1)) (s.mem.read (s.pc.toNat + 2)) with
      ⟨m, hop, hd⟩ | ⟨hop, hd⟩
    · exact .inr (.inr ⟨hf, m, hop, by rw [fetchDecode_of_fetchable hf, hd]⟩)
    · refine .inr (.inl ⟨hf, fun hmem => ?_, by rw [fetchDecode_of_fetchable hf, hd]⟩)
      obtain ⟨m, hm⟩ := mem_opcodes_iff.mp hmem
      exact hop m hm
  · exact .inl ⟨hf, fetchDecode_of_not_fetchable_eq_memSize hf⟩

/-- The opcode of a mnemonic decodes to its instruction (R74). -/
theorem decode_opcodeMap (m : Mnemonic) (a b : Byte) : decode (opcodeMap m) a b = .ok (m.instr a b) := by
  simp [decode, decodeWith, decodeOpcode_opcodeMap]

section
variable {s : State} {m : Mnemonic} {a b : Byte} (h : s.Fetches (opcodeMap m) a b)
include h

theorem State.Fetches.decode_window :
    decode (s.mem.read s.pc.toNat) (s.mem.read (s.pc.toNat + 1)) (s.mem.read (s.pc.toNat + 2)) =
      .ok (m.instr a b) := by
  rw [h.opcode, h.first, h.second, decode_opcodeMap]

theorem State.Fetches.step_eq_exec : step s = exec (m.instr a b) s := by
  rw [step_of_running h.running, fetchDecode_of_fetchable h.inRange, h.decode_window]

end

/-- A halted core stays as it is (R99). -/
theorem step_of_halted {s : State} (h : s.halted = true) : step s = .next s := if_pos h

/-- What a step of a running core does: a fault of fetch or decode, a fault the decoded instruction raises, or the
effect of that instruction (R95, R98, R100). -/
theorem step_running_cases {s t : State} (hrun : s.halted = false) (h : step s = .next t) :
    (¬ s.fetchable ∧ t = s.enterFault (.outOfRangeMemory memSize)) ∨
    (s.fetchable ∧ s.mem.read s.pc.toNat ∉ opcodes ∧
      t = s.enterFault (.unknownOpcode (s.mem.read s.pc.toNat))) ∨
    ∃ m a b, s.Fetches (opcodeMap m) a b ∧
      ((∃ f, RaisedBy (m.instr a b) s f ∧ t = s.enterFault f) ∨ Effect (m.instr a b) s t) := by
  rw [step_of_running hrun] at h
  rcases fetchDecode_cases s with ⟨hf, he⟩ | ⟨hf, hop, he⟩ | ⟨hf, m, hop, he⟩
  · rw [he] at h; cases h; exact .inl ⟨hf, rfl⟩
  · rw [he] at h; cases h; exact .inr (.inl ⟨hf, hop, rfl⟩)
  · rw [he] at h
    exact .inr (.inr ⟨m, _, _, ⟨hrun, hf, hop, rfl, rfl⟩, exec_eq_next h⟩)

end Sys2Proof.Machine
end

section
/-!
The frame of an instruction that raises nothing: outside the registers and the PC it changes one field at most, and
only HLT, PRN, CMP, PUSH and CALL change one.
-/

namespace Sys2Proof.Machine

/-- `t` is `s` but for the registers and the PC. -/
def RegsAndPcAlone (s t : State) : Prop := ∃ f p, t = { s with regs := f, pc := p }

theorem AluEffect.regsAndPcAlone {v : Byte → Byte → Byte} {a b : Byte} {s t : State} (h : AluEffect v a b s t) :
    RegsAndPcAlone s t := by
  obtain ⟨i, j, -, -, rfl⟩ := h
  exact ⟨_, _, rfl⟩

theorem RegsAndPcAlone.ite {s t u : State} (c : Prop) [Decidable c] (ht : RegsAndPcAlone s t)
    (hu : RegsAndPcAlone s u) : RegsAndPcAlone s (if c then t else u) := by
  split
  · exact ht
  · exact hu

/-- The ways an instruction that raises nothing changes the state, told apart by the fields outside the registers and
the PC. -/
theorem Effect.cases {i : Instr} {s t : State} (h : Effect i s t) :
    (i = .hlt ∧ t = s.halt) ∨
    (∃ (a : Byte) (r : RegIdx), i = .prn a ∧ a.toNat = r.val ∧ t = (s.emit (s.reg r)).advance 2) ∨
    (∃ (a b : Byte) (r r' : RegIdx), i = .cmp a b ∧
      t = (s.setFl (compareFlags (s.reg r) (s.reg r'))).advance 3) ∨
    (∃ v, (s.sp - 1).toNat < memSize ∧ RegsAndPcAlone (s.setMem (s.mem.write (s.sp - 1).toNat v)) t) ∨
    RegsAndPcAlone s t := by
  cases i with
  | hlt => exact .inl ⟨rfl, h⟩
  | prn a =>
    obtain ⟨r, hr, ht⟩ := h
    exact .inr (.inl ⟨a, r, rfl, hr, ht⟩)
  | cmp a b =>
    obtain ⟨r, r', -, -, ht⟩ := h
    exact .inr (.inr (.inl ⟨a, b, r, r', rfl, ht⟩))
  | push a | call a =>
    obtain ⟨r, -, hlt, rfl⟩ := h
    exact .inr (.inr (.inr (.inl ⟨_, hlt, _, _, rfl⟩)))
  | ret =>
    obtain ⟨-, rfl⟩ := h
    exact .inr (.inr (.inr (.inr ⟨_, _, rfl⟩)))
  | pop a =>
    obtain ⟨r, -, -, rfl⟩ := h
    exact .inr (.inr (.inr (.inr ⟨_, _, rfl⟩)))
  | jmp a | not a | ldi a b =>
    obtain ⟨r, -, rfl⟩ := h
    exact .inr (.inr (.inr (.inr ⟨_, _, rfl⟩)))
  | jeq a | jne a =>
    obtain ⟨r, -, rfl⟩ := h
    exact .inr (.inr (.inr (.inr (.ite _ ⟨_, _, rfl⟩ ⟨_, _, rfl⟩))))
  | div a b | mod a b => exact .inr (.inr (.inr (.inr (AluEffect.regsAndPcAlone h.1))))
  | add a b | sub a b | mul a b | and a b | or a b | xor a b | shl a b | shr a b =>
    exact .inr (.inr (.inr (.inr (AluEffect.regsAndPcAlone h))))

section
variable {i : Instr} {s t : State} (h : Effect i s t)
include h

/-- Only HLT changes the run state (R30, R95). -/
theorem Effect.runKept (hi : i ≠ .hlt) : RunKept s t := by
  rcases h.cases with ⟨hhlt, -⟩ | ⟨a, r, -, -, rfl⟩ | ⟨a, b, r, r', -, rfl⟩ | ⟨v, -, f, p, rfl⟩ | ⟨f, p, rfl⟩
  · exact absurd hhlt hi
  all_goals exact ⟨rfl, rfl, rfl, rfl, rfl⟩

/-- FL is kept, or CMP has written it (R28, R160). -/
theorem Effect.fl_cases : t.fl = s.fl ∨ i.mnemonic = .cmp ∧ ∃ x y, t.fl = compareFlags x y := by
  rcases h.cases with ⟨-, rfl⟩ | ⟨a, r, -, -, rfl⟩ | ⟨a, b, r, r', rfl, rfl⟩ | ⟨v, -, f, p, rfl⟩ | ⟨f, p, rfl⟩
  · exact .inl rfl
  · exact .inl rfl
  · exact .inr ⟨rfl, _, _, rfl⟩
  · exact .inl rfl
  · exact .inl rfl

/-- The output stream is kept, or PRN has appended its register (R33, R111). -/
theorem Effect.output_cases : t.output = s.output ∨
    ∃ (a : Byte) (r : RegIdx), i = .prn a ∧ a.toNat = r.val ∧ t.output = s.output ++ [s.reg r] := by
  rcases h.cases with ⟨-, rfl⟩ | ⟨a, r, hi, ha, rfl⟩ | ⟨a, b, r, r', -, rfl⟩ | ⟨v, -, f, p, rfl⟩ | ⟨f, p, rfl⟩
  · exact .inl rfl
  · exact .inr ⟨a, r, hi, ha, rfl⟩
  all_goals exact .inl rfl

/-- The canonical form of memory is kept (R50). -/
theorem Effect.mem_wf (hs : s.mem.wf = true) : t.mem.wf = true := by
  rcases h.cases with ⟨-, rfl⟩ | ⟨a, r, -, -, rfl⟩ | ⟨a, b, r, r', -, rfl⟩ | ⟨v, hlt, f, p, rfl⟩ | ⟨f, p, rfl⟩
  · exact hs
  · exact hs
  · exact hs
  · exact Memory.wf_write v hs hlt
  · exact hs

end

end Sys2Proof.Machine
end

section
/-!
The invariant (spec/10_state.md R29 to R32, spec/60_exceptions.md R172, R177): the fault record every fault leaves
fits its status, and each end of a step keeps the invariant.
-/

namespace Sys2Proof.Machine

/-! ### The fault record of each fault -/

/-- The record of a fault fits its status. -/
def Raise.Fits (f : Raise) : Prop := recordFits f.status f.space f.value

/-- A memory fault at MEM_SIZE. -/
theorem Raise.fits_memory {n : Nat} (h : n = memSize) : (Raise.outOfRangeMemory n).Fits := by
  subst h
  exact .inl ⟨rfl, rfl⟩

/-- The one byte that is no address is MEM_SIZE (R4). -/
theorem toNat_eq_memSize {x : Byte} (h : memSize ≤ x.toNat) : x.toNat = memSize := by
  have := x.isLt
  simp only [memSize] at h ⊢
  omega

/-- A byte in nine bits: fault_value and dbg_data (R32, R45). -/
theorem toNat_setWidth_nine (x : Byte) : (x.setWidth 9).toNat = x.toNat :=
  BitVec.toNat_setWidth_of_le (by decide)

theorem Raise.fits_register {r : Byte} (h : 8 ≤ r.toNat) : (Raise.outOfRangeRegister r).Fits := by
  refine .inr ⟨rfl, ?_, ?_⟩
  · rwa [Raise.value, toNat_setWidth_nine]
  · rw [Raise.value, toNat_setWidth_nine]
    exact r.isLt

theorem Raise.fits_unknownOpcode {op : Byte} (h : op ∉ opcodes) : (Raise.unknownOpcode op).Fits := by
  refine ⟨rfl, ?_, ?_⟩
  · rw [Raise.value, toNat_setWidth_nine]
    exact op.isLt
  · rwa [Raise.value, BitVec.setWidth_setWidth_of_le _ (by decide), BitVec.setWidth_eq]

theorem RaisedBy.fits {i : Instr} {s : State} {f : Raise} (h : RaisedBy i s f) : f.Fits := by
  rcases h with ⟨r, -, hr, rfl⟩ | h
  · exact Raise.fits_register hr
  · cases i with
    | div a b | mod a b =>
      obtain ⟨-, rfl⟩ := h
      exact ⟨rfl, rfl⟩
    | push a | call a | pop a | ret =>
      obtain ⟨hge, rfl⟩ := h
      exact Raise.fits_memory (toNat_eq_memSize hge)
    | hlt | prn a | jmp a | jeq a | jne a | not a | ldi a b | add a b | sub a b | mul a b | cmp a b
    | and a b | or a b | xor a b | shl a b | shr a b => exact h.elim

/-! ### The ends of a step -/

/-- What CMP writes is one of the values of R29. -/
theorem compareFlags_mem (x y : Byte) :
    compareFlags x y = 0 ∨ compareFlags x y = 1 ∨ compareFlags x y = 2 ∨ compareFlags x y = 4 := by
  unfold compareFlags
  split
  · exact .inr (.inl rfl)
  · split
    · exact .inr (.inr (.inl rfl))
    · exact .inr (.inr (.inr rfl))

theorem Raise.status_ne_running (f : Raise) : f.status ≠ .running := by cases f <;> simp [Raise.status]

theorem Raise.status_ne_halt (f : Raise) : f.status ≠ .halt := by cases f <;> simp [Raise.status]

/-- A fault entry keeps the invariant (R177). -/
theorem State.Inv.enterFault {s : State} (hs : s.Inv) {f : Raise} (hf : f.Fits) : (s.enterFault f).Inv where
  memory := hs.memory
  flags := hs.flags
  status := ⟨fun h => absurd h f.status_ne_running, fun h => nomatch h⟩
  record := hf
  noFaultPc h := (h.elim f.status_ne_running f.status_ne_halt).elim
  faultPc _ _ := rfl

/-- HLT in a running core keeps the invariant: the record is 0 and stays (R32, R112). -/
theorem State.Inv.halt {s : State} (hs : s.Inv) (hrun : s.halted = false) : s.halt.Inv := by
  have hst := hs.status.mpr hrun
  have hrec := hs.record
  rw [hst] at hrec
  exact
    { memory := hs.memory
      flags := hs.flags
      status := ⟨(nomatch ·), (nomatch ·)⟩
      record := hrec
      noFaultPc := fun _ => hs.noFaultPc (.inl hst)
      faultPc := fun _ h => absurd rfl h }

/-- A change that keeps the run state of a running core, the canonical memory and the values of FL. -/
theorem State.Inv.of_runKept {s t : State} (hs : s.Inv) (hrun : s.halted = false) (hkept : RunKept s t)
    (hmem : t.mem.wf = true) (hfl : t.fl = 0 ∨ t.fl = 1 ∨ t.fl = 2 ∨ t.fl = 4) : t.Inv := by
  have hst : t.status = .running := hkept.status.trans (hs.status.mpr hrun)
  exact
    { memory := hmem
      flags := hfl
      status := ⟨fun _ => hkept.halted.trans hrun, fun _ => hst⟩
      record := by
        rw [hkept.status, hkept.faultSpace, hkept.faultValue]
        exact hs.record
      noFaultPc := fun _ => hkept.faultPc.trans (hs.noFaultPc (.inl (hs.status.mpr hrun)))
      faultPc := fun h => absurd hst h }

/-- An instruction that raises nothing keeps the invariant. -/
theorem Effect.inv {i : Instr} {s t : State} (h : Effect i s t) (hs : s.Inv) (hrun : s.halted = false) : t.Inv := by
  by_cases hi : i = .hlt
  · subst hi
    obtain rfl : t = s.halt := h
    exact hs.halt hrun
  · refine hs.of_runKept hrun (h.runKept hi) (h.mem_wf hs.memory) ?_
    rcases h.fl_cases with hfl | ⟨-, x, y, hfl⟩
    · rw [hfl]
      exact hs.flags
    · rw [hfl]
      exact compareFlags_mem x y

/-- Settles O50: each end of a step keeps the invariant. -/
theorem everyStepKeepsTheInvariant : Obligations.EveryStepKeepsTheInvariant := by
  intro s t hs h
  cases hrun : s.halted with
  | true =>
    rw [step_of_halted hrun] at h
    cases h
    exact hs
  | false =>
    rcases step_running_cases hrun h with ⟨-, rfl⟩ | ⟨-, hop, rfl⟩ | ⟨m, a, b, -, ⟨f, hf, rfl⟩ | heff⟩
    · exact hs.enterFault (Raise.fits_memory rfl)
    · exact hs.enterFault (Raise.fits_unknownOpcode hop)
    · exact hs.enterFault hf.fits
    · exact heff.inv hs hrun

/-- Settles O49: the reset state runs, with an empty memory, FL 0 and a fault record of 0. -/
theorem invariantHoldsAtReset : Obligations.InvariantHoldsAtReset where
  memory := State.reset_mem_wf
  flags := .inl rfl
  status := ⟨fun _ => rfl, fun _ => rfl⟩
  record := ⟨rfl, rfl⟩
  noFaultPc _ := rfl
  faultPc h := absurd rfl h

/-- A reset edge keeps the canonical form of memory and sets all else to its reset value (R42, R190). -/
theorem State.Inv.resetEdge {s : State} (hs : s.Inv) (rstBefore : Bool) (p : Pins) :
    (resetEdge rstBefore p s).Inv :=
  { invariantHoldsAtReset with
    memory := by
      cases rstBefore with
      | true => exact loadPort_wf p hs.memory
      | false => exact State.reset_mem_wf }

/-- Settles O60: a reset edge or a step. -/
theorem everyClockEdgeKeepsTheInvariant : Obligations.EveryClockEdgeKeepsTheInvariant := by
  intro rstBefore p s t hs h
  unfold clockEdge at h
  split at h
  · cases h
    exact hs.resetEdge rstBefore p
  · exact everyStepKeepsTheInvariant s t hs h

/-- A sequence of clock edges keeps the invariant. -/
theorem clockRun_inv {rstBefore : Bool} {ps : List Pins} {s t : State} (hs : s.Inv)
    (h : clockRun rstBefore ps s = .next t) : t.Inv := by
  induction ps generalizing rstBefore s with
  | nil =>
    cases h
    exact hs
  | cons p rest ih =>
    unfold clockRun at h
    split at h
    · next u hu => exact ih (everyClockEdgeKeepsTheInvariant rstBefore p s u hs hu) h
    · cases h
    · cases h

/-- Settles O51: the run begins with a reset edge, and every edge after it keeps the invariant. -/
theorem everyReachedStateMeetsTheInvariant : Obligations.EveryReachedStateMeetsTheInvariant := by
  intro ps t h
  unfold powerOn at h
  split at h
  · cases h
  · split at h
    · exact clockRun_inv invariantHoldsAtReset h
    · cases h

/-- Settles O52: the code is 0 for RUNNING alone, and the invariant ties RUNNING to halted. -/
theorem statusWordTellsWhyTheCoreHalted : Obligations.StatusWordTellsWhyTheCoreHalted := by
  refine ⟨⟨rfl, rfl, rfl, rfl, rfl, rfl⟩, fun st => ?_, fun s hs => ?_⟩
  · cases st <;> decide
  · have hcode : s.status.code = 0 ↔ s.status = .running := by cases s.status <;> decide
    exact hcode.trans hs.status

end Sys2Proof.Machine
end

section
/-!
The priority order of faults (spec/60_exceptions.md R178) against what the decoded instruction raises: a running core's
step reports no fault exactly when the window decodes to an instruction that raises none.
-/

namespace Sys2Proof.Machine

/-! ### An instruction raises a fault or has its effect, never both -/

/-- The register operands of an instruction that raises nothing select registers (R93). -/
theorem Effect.regOperands_lt {i : Instr} {s t : State} (h : Effect i s t) {r : Byte} (hr : r ∈ i.regOperands) :
    r.toNat < 8 := by
  have halu : ∀ {v : Byte → Byte → Byte} {a b : Byte}, AluEffect v a b s t → r ∈ [a, b] → r.toNat < 8 := by
    rintro v a b ⟨i, j, hi, hj, -⟩ hr
    rcases List.mem_pair.mp hr with rfl | rfl <;> omega
  cases i with
  | hlt | ret => cases hr
  | push a | pop a | prn a | call a | jmp a | jeq a | jne a | not a | ldi a b =>
    obtain ⟨j, hj, -⟩ := h
    obtain rfl := List.mem_singleton.mp hr
    omega
  | cmp a b =>
    obtain ⟨i, j, hi, hj, -⟩ := h
    rcases List.mem_pair.mp hr with rfl | rfl <;> omega
  | div a b | mod a b => exact halu h.1 hr
  | add a b | sub a b | mul a b | and a b | or a b | xor a b | shl a b | shr a b => exact halu h hr

theorem Effect.not_raisedBy {i : Instr} {s t : State} (h : Effect i s t) (f : Raise) : ¬ RaisedBy i s f := by
  rintro (⟨r, hr, hge, -⟩ | hop)
  · have := h.regOperands_lt hr
    omega
  · cases i with
    | ret =>
      have := h.1
      have := hop.1
      omega
    | push a | pop a | call a =>
      obtain ⟨-, -, hlt, -⟩ := h
      have := hop.1
      omega
    | div a b | mod a b =>
      obtain ⟨⟨j, hj, hzero⟩, -⟩ := hop
      exact h.2 j hj hzero
    | hlt | prn a | jmp a | jeq a | jne a | not a | ldi a b | add a b | sub a b | mul a b | cmp a b
    | and a b | or a b | xor a b | shl a b | shr a b => exact hop

/-! ### The priority order -/

theorem isSome_ite_some {α : Type} (c : Prop) [Decidable c] (x : α) (o : Option α) :
    (if c then some x else o).isSome = true ↔ c ∨ o.isSome = true := by
  split <;> simp [*]

/-- The rows of R178 after the decode, on the bytes of the window. -/
def OperandFault (s : State) (op a b : Byte) : Prop :=
  (op ∉ opcodesN ∧ 8 ≤ a.toNat) ∨ (op ∈ opcodesRR ∧ 8 ≤ b.toNat) ∨
  (op = 0xA3 ∧ s.reg ⟨b.toNat % 8, Nat.mod_lt _ (by decide)⟩ = 0) ∨
  (op = 0xA4 ∧ s.reg ⟨b.toNat % 8, Nat.mod_lt _ (by decide)⟩ = 0) ∨
  ((op = 0x45 ∨ op = 0x50) ∧ memSize ≤ (s.sp - 1).toNat) ∨
  ((op = 0x46 ∨ op = 0x11) ∧ memSize ≤ s.sp.toNat)

/-- The priority order has a fault when the fetch, the decode or a later row has one. -/
theorem priorityFault_isSome_iff (s : State) :
    (priorityFault s).isSome = true ↔
      ¬ s.fetchable ∨ s.mem.read s.pc.toNat ∉ opcodes ∨
      OperandFault s (s.mem.read s.pc.toNat) (s.mem.read (s.pc.toNat + 1)) (s.mem.read (s.pc.toNat + 2)) := by
  have hfetch : ¬ s.fetchable ↔
      memSize ≤ s.pc.toNat ∨ memSize ≤ s.pc.toNat + 1 ∨ memSize ≤ s.pc.toNat + 2 := by
    unfold State.fetchable
    omega
  rw [hfetch]
  simp only [priorityFault, isSome_ite_some, OperandFault, Option.isSome_none, Bool.false_eq_true, or_false, or_assoc]

/-- The register checks of R178 are those of the instruction's register operands (R93). -/
theorem mem_regOperands_instr_iff (m : Mnemonic) (a b r : Byte) :
    r ∈ (m.instr a b).regOperands ↔
      (opcodeMap m ∉ opcodesN ∧ r = a) ∨ (opcodeMap m ∈ opcodesRR ∧ r = b) := by
  cases m <;> simp [Mnemonic.instr, Instr.regOperands, opcodeMap, opcodesN, opcodesRR]

theorem exists_regOperands_iff (m : Mnemonic) (a b : Byte) :
    (∃ r ∈ (m.instr a b).regOperands, 8 ≤ r.toNat) ↔
      (opcodeMap m ∉ opcodesN ∧ 8 ≤ a.toNat) ∨ (opcodeMap m ∈ opcodesRR ∧ 8 ≤ b.toNat) := by
  simp only [mem_regOperands_instr_iff]
  grind

section
variable {m : Mnemonic} {a b : Byte} {s : State}

/-- A row of the priority order is a fault of the decoded instruction. The divisor rows read the register of the low
three bits of `b`, which is the operand's register once the row of `b` has passed. -/
theorem OperandFault.exists_raisedBy (h : OperandFault s (opcodeMap m) a b) : ∃ f, RaisedBy (m.instr a b) s f := by
  by_cases hreg : ∃ r ∈ (m.instr a b).regOperands, 8 ≤ r.toNat
  · obtain ⟨r, hr, hge⟩ := hreg
    exact ⟨_, .register hge hr⟩
  · have hdivisor : b ∈ (m.instr a b).regOperands → b.toNat = b.toNat % 8 := fun hb => by
      have : ¬ 8 ≤ b.toNat := fun hge => hreg ⟨b, hb, hge⟩
      omega
    rcases (or_assoc.mpr h).resolve_left (mt (exists_regOperands_iff m a b).mpr hreg) with
      ⟨hop, hzero⟩ | ⟨hop, hzero⟩ | ⟨hop | hop, hge⟩ | ⟨hop | hop, hge⟩
    · obtain rfl := opcodeMap_injective m .div hop
      exact ⟨_, .inr ⟨⟨_, hdivisor (.tail _ (.head _)), hzero⟩, rfl⟩⟩
    · obtain rfl := opcodeMap_injective m .mod hop
      exact ⟨_, .inr ⟨⟨_, hdivisor (.tail _ (.head _)), hzero⟩, rfl⟩⟩
    · obtain rfl := opcodeMap_injective m .push hop
      exact ⟨_, .inr ⟨hge, rfl⟩⟩
    · obtain rfl := opcodeMap_injective m .call hop
      exact ⟨_, .inr ⟨hge, rfl⟩⟩
    · obtain rfl := opcodeMap_injective m .pop hop
      exact ⟨_, .inr ⟨hge, rfl⟩⟩
    · obtain rfl := opcodeMap_injective m .ret hop
      exact ⟨_, .inr ⟨hge, rfl⟩⟩

/-- A divisor of 0 stands in the register of the low three bits of its operand. -/
theorem reg_mod_eight_eq_zero (h : ∃ j : RegIdx, b.toNat = j.val ∧ s.reg j = 0) :
    s.reg ⟨b.toNat % 8, Nat.mod_lt _ (by decide)⟩ = 0 := by
  obtain ⟨j, hj, hzero⟩ := h
  rwa [show (⟨b.toNat % 8, _⟩ : RegIdx) = j from Fin.ext (by simp [hj, Nat.mod_eq_of_lt j.isLt])]

/-- A fault of the decoded instruction stands in the priority order. -/
theorem RaisedBy.operandFault {f : Raise} (h : RaisedBy (m.instr a b) s f) : OperandFault s (opcodeMap m) a b := by
  rcases h with ⟨r, hr, hge, -⟩ | h
  · exact or_assoc.mp (.inl ((exists_regOperands_iff m a b).mp ⟨r, hr, hge⟩))
  · refine .inr (.inr ?_)
    cases m with
    | div => exact .inl ⟨rfl, reg_mod_eight_eq_zero h.1⟩
    | mod => exact .inr (.inl ⟨rfl, reg_mod_eight_eq_zero h.1⟩)
    | push => exact .inr (.inr (.inl ⟨.inl rfl, h.1⟩))
    | call => exact .inr (.inr (.inl ⟨.inr rfl, h.1⟩))
    | pop => exact .inr (.inr (.inr ⟨.inl rfl, h.1⟩))
    | ret => exact .inr (.inr (.inr ⟨.inr rfl, h.1⟩))
    | hlt | prn | jmp | jeq | jne | not | ldi | add | sub | mul | cmp | and | or | xor | shl | shr => exact h.elim

/-- For a window with an opcode, the priority order has a fault exactly when the decoded instruction raises one. -/
theorem State.Fetches.priorityFault_isSome_iff (h : s.Fetches (opcodeMap m) a b) :
    (priorityFault s).isSome = true ↔ ∃ f, RaisedBy (m.instr a b) s f := by
  have hiff := Machine.priorityFault_isSome_iff s
  rw [h.opcode, h.first, h.second] at hiff
  constructor
  · intro hsome
    rcases hiff.mp hsome with hf | hop | hrow
    · exact absurd h.inRange hf
    · exact absurd (mem_opcodes_iff.mpr ⟨m, rfl⟩) hop
    · exact hrow.exists_raisedBy
  · rintro ⟨f, hf⟩
    exact hiff.mpr (.inr (.inr hf.operandFault))

end

/-! ### The commit of a step and the halted flag -/

/-- A running core with no fault in the priority order fetches an instruction and has its effect. -/
theorem exists_effect_of_priorityFault_eq_none {s : State} (hrun : s.halted = false) (h : priorityFault s = none) :
    ∃ m a b t, s.Fetches (opcodeMap m) a b ∧ step s = .next t ∧ Effect (m.instr a b) s t := by
  have hnone : ¬ (priorityFault s).isSome = true := by simp [h]
  have hnot := mt (priorityFault_isSome_iff s).mpr hnone
  push Not at hnot
  obtain ⟨hf, hop, -⟩ := hnot
  obtain ⟨m, hm⟩ := mem_opcodes_iff.mp hop
  have hfetch : s.Fetches (opcodeMap m) _ _ := ⟨hrun, hf, hm, rfl, rfl⟩
  rcases exec_cases (m.instr _ _) s with ⟨f, hraise, -⟩ | ⟨t, heff, he⟩
  · exact absurd (hfetch.priorityFault_isSome_iff.mpr ⟨f, hraise⟩) hnone
  · exact ⟨m, _, _, t, hfetch, hfetch.step_eq_exec.trans he, heff⟩

/-- Settles O59: without a fault in the priority order the step has the effect of the decoded instruction. -/
theorem stepWithoutAFaultCommits : Obligations.StepWithoutAFaultCommits := by
  intro s hrun hnone
  obtain ⟨m, a, b, t, hfetch, hstep, heff⟩ := exists_effect_of_priorityFault_eq_none hrun hnone
  refine ⟨m.instr a b, t, hfetch.decode_window, hfetch.step_eq_exec, hstep, heff.runKept, fun hhlt => ?_⟩
  rw [hhlt] at heff
  exact heff

/-- A window whose opcode is HLT's holds HLT. -/
theorem instr_eq_hlt_iff (m : Mnemonic) (a b : Byte) : m.instr a b = .hlt ↔ opcodeMap m = 0x01 := by
  constructor
  · intro h
    have hm : m = .hlt := by rw [← Mnemonic.instr_mnemonic m a b, h]; rfl
    rw [hm]
    rfl
  · intro h
    rw [opcodeMap_injective m .hlt h]
    rfl

/-- A running core's step halts exactly on a fault and on HLT (R30). -/
theorem halted_after_step_iff {s t : State} (hrun : s.halted = false) (h : step s = .next t) :
    t.halted = true ↔ (priorityFault s).isSome = true ∨ (s.fetchable ∧ s.mem.read s.pc.toNat = 0x01) := by
  rcases step_running_cases hrun h with ⟨hf, rfl⟩ | ⟨-, hop, rfl⟩ | ⟨m, a, b, hfetch, ⟨f, hraise, rfl⟩ | heff⟩
  · exact iff_of_true rfl (.inl ((priorityFault_isSome_iff s).mpr (.inl hf)))
  · exact iff_of_true rfl (.inl ((priorityFault_isSome_iff s).mpr (.inr (.inl hop))))
  · exact iff_of_true rfl (.inl (hfetch.priorityFault_isSome_iff.mpr ⟨f, hraise⟩))
  · have hnone : ¬ (priorityFault s).isSome = true := fun hsome =>
      (hfetch.priorityFault_isSome_iff.mp hsome).elim heff.not_raisedBy
    by_cases hhlt : m.instr a b = .hlt
    · have hop := (instr_eq_hlt_iff m a b).mp hhlt
      rw [hhlt] at heff
      obtain rfl : t = s.halt := heff
      exact iff_of_true rfl (.inr ⟨hfetch.inRange, hfetch.opcode.trans hop⟩)
    · refine iff_of_false ?_ (not_or.mpr ⟨hnone, fun ⟨_, hop⟩ => hhlt ?_⟩)
      · simp [(heff.runKept hhlt).halted, hrun]
      · exact (instr_eq_hlt_iff m a b).mpr (hfetch.opcode.symm.trans hop)

/-- Settles O37: a reset edge clears halted, a halted core keeps it, and a running core's step sets it on a fault and on
HLT. -/
theorem haltedIsSetByHltAndFaultsAndClearedByReset : Obligations.HaltedIsSetByHltAndFaultsAndClearedByReset := by
  intro rstBefore p s t h
  cases hrst : p.rst with
  | true =>
    obtain rfl : resetEdge rstBefore p s = t := by simpa [clockEdge, hrst] using h
    exact ⟨fun _ _ => rfl, fun _ => rfl, fun _ hno => by simp at hno⟩
  | false =>
    have hstep : step s = .next t := by simpa [clockEdge, hrst] using h
    refine ⟨fun hhalted hclear => ?_, fun hno => by simp at hno, fun hrun _ => halted_after_step_iff hrun hstep⟩
    rw [step_of_halted hhalted] at hstep
    cases hstep
    simp [hhalted] at hclear

end Sys2Proof.Machine
end

section
/-!
What an instruction leaves unchanged: FL (spec/10_state.md R28) and the registers it does not name (R21, R94).
-/

namespace Sys2Proof.Machine

/-! ### FL has no effect on an instruction but on JEQ and JNE -/

/-- The end of a step with FL set to `f` beforehand, when the body of the step carries the change along. -/
theorem commit_setFl {s t : State} {f : Byte} {r r' : Except Raise State} (hr : r' = r.map (·.setFl f))
    (h : commit s r = .next t) : commit (s.setFl f) r' = .next (t.setFl f) := by
  subst hr
  cases r with
  | ok u => cases h; rfl
  | error e => cases h; rfl

theorem pushByte_setFl (s : State) (f : Byte) {v : State → Byte} (hv : ∀ u : State, v (u.setFl f) = v u) :
    pushByte (s.setFl f) v = (pushByte s v).map (·.setFl f) := by
  have hval : v ((s.setFl f).setSp (s.sp - 1)) = v (s.setSp (s.sp - 1)) := hv (s.setSp _)
  rcases pushByte_cases s v with ⟨hlt, hp⟩ | ⟨hge, hp⟩
  · rw [hp, pushByte, State.setFl_sp, State.sp_setSp, memWrite_of_lt hlt, hval]
    rfl
  · rw [hp, pushByte, State.setFl_sp, State.sp_setSp, memWrite_of_ge hge]
    rfl

theorem popRead_setFl (s : State) (f : Byte) : popRead (s.setFl f) = popRead s := rfl

/-- A two-register ALU instruction reads and writes no FL (R140). -/
theorem exec_setFl_of_aluRR {i : Instr} {op : Byte → Byte → Except Raise Byte} {a b f : Byte} {s t : State}
    (hexec : ∀ u, exec i u = aluRR op a b u) (h : exec i s = .next t) : exec i (s.setFl f) = .next (t.setFl f) := by
  rw [hexec] at h ⊢
  refine commit_setFl ?_ h
  cases regIndex a with
  | error e => rfl
  | ok i =>
    cases regIndex b with
    | error e => rfl
    | ok j =>
      simp only [State.setFl_reg]
      cases hv : op (s.reg i) (s.reg j) with
      | error e => simp [hv, bind, Except.bind, Except.map]
      | ok v => simp [hv, bind, Except.bind, Except.map]; rfl

/-- An instruction with one register operand, whose result carries the change of FL along. -/
theorem oneReg_setFl {a f : Byte} {s t : State} {k k' : RegIdx → State} (hk : ∀ r, k' r = (k r).setFl f)
    (h : commit s (regIndex a >>= fun r => pure (k r)) = .next t) :
    commit (s.setFl f) (regIndex a >>= fun r => pure (k' r)) = .next (t.setFl f) := by
  obtain rfl : k' = fun r => (k r).setFl f := funext hk
  refine commit_setFl ?_ h
  cases regIndex a <;> rfl

/-- An instruction that pushes a byte, when the byte and the result carry the change of FL along. -/
theorem push_setFl {a f : Byte} {s t : State} {v : RegIdx → State → Byte} {k : RegIdx → State → State}
    (hv : ∀ r u, v r (u.setFl f) = v r u) (hk : ∀ r u, k r (u.setFl f) = (k r u).setFl f)
    (h : commit s (regIndex a >>= fun r => pushByte s (v r) >>= fun u => pure (k r u)) = .next t) :
    commit (s.setFl f) (regIndex a >>= fun r => pushByte (s.setFl f) (v r) >>= fun u => pure (k r u)) =
      .next (t.setFl f) := by
  refine commit_setFl ?_ h
  cases regIndex a with
  | error e => rfl
  | ok r =>
    simp only [bind, Except.bind, pushByte_setFl s f (hv r)]
    cases pushByte s (v r) with
    | error e => rfl
    | ok u => exact congrArg Except.ok (hk r u)

/-- Every instruction but CMP carries any change of FL along, JEQ and JNE one that keeps bit E. -/
theorem exec_setFl {i : Instr} {s t : State} {f : Byte} (hcmp : i.mnemonic ≠ .cmp)
    (hjump : i.mnemonic = .jeq ∨ i.mnemonic = .jne → flagE f = flagE s.fl) (h : exec i s = .next t) :
    exec i (s.setFl f) = .next (t.setFl f) := by
  cases i with
  | cmp a b => exact absurd rfl hcmp
  | hlt =>
    cases h
    rfl
  | ret =>
    refine commit_setFl ?_ h
    rw [popRead_setFl]
    cases popRead s <;> rfl
  | push a | call a => exact push_setFl (fun _ _ => rfl) (fun _ _ => rfl) h
  | pop a =>
    refine commit_setFl ?_ h
    rw [popRead_setFl]
    cases regIndex a with
    | error e => rfl
    | ok r => cases popRead s <;> rfl
  | jeq a | jne a =>
    have hE : flagE f = flagE s.fl := hjump (by simp [Instr.mnemonic])
    refine oneReg_setFl (fun r => ?_) h
    rw [State.setFl_fl, hE, apply_ite (State.setFl · f)]
    rfl
  | prn a | jmp a | not a | ldi a b => exact oneReg_setFl (fun _ => rfl) h
  | add a b => exact exec_setFl_of_aluRR (exec_add a b) h
  | sub a b => exact exec_setFl_of_aluRR (exec_sub a b) h
  | mul a b => exact exec_setFl_of_aluRR (exec_mul a b) h
  | div a b => exact exec_setFl_of_aluRR (exec_div a b) h
  | mod a b => exact exec_setFl_of_aluRR (exec_mod a b) h
  | and a b => exact exec_setFl_of_aluRR (exec_and a b) h
  | or a b => exact exec_setFl_of_aluRR (exec_or a b) h
  | xor a b => exact exec_setFl_of_aluRR (exec_xor a b) h
  | shl a b => exact exec_setFl_of_aluRR (exec_shl a b) h
  | shr a b => exact exec_setFl_of_aluRR (exec_shr a b) h

/-- CMP overwrites the FL it finds, or faults and leaves it. -/
theorem execCmp_setFl {a b f : Byte} {s t : State} (h : execCmp a b s = .next t) :
    ∃ g, execCmp a b (s.setFl f) = .next (t.setFl g) := by
  unfold execCmp at h ⊢
  cases ha : regIndex a with
  | error e =>
    rw [ha] at h
    cases h
    exact ⟨f, rfl⟩
  | ok i =>
    cases hb : regIndex b with
    | error e =>
      rw [ha, hb] at h
      cases h
      exact ⟨f, rfl⟩
    | ok j =>
      rw [ha, hb] at h
      cases h
      exact ⟨_, rfl⟩

theorem flagE_eq_of_mod_two_eq {f g : Byte} (h : f.toNat % 2 = g.toNat % 2) : flagE f = flagE g := by
  simp [flagE, BitVec.getLsbD, Nat.testBit_zero, h]

/-- Settles O39: FL changes only in the effect of CMP, and every instruction carries a change of FL along. -/
theorem flagsAreWrittenByCmpAndReadByBitZero : Obligations.FlagsAreWrittenByCmpAndReadByBitZero := by
  refine ⟨fun i s t h hne => ?_, fun i s t f h hjump => ?_⟩
  · rcases exec_eq_next h with ⟨e, -, rfl⟩ | heff
    · exact absurd rfl hne
    · rcases heff.fl_cases with hfl | ⟨hcmp, -⟩
      · exact absurd hfl hne
      · exact hcmp
  · by_cases hcmp : i.mnemonic = .cmp
    · cases i with
      | cmp a b => exact execCmp_setFl h
      | _ => cases hcmp
    · exact ⟨f, exec_setFl hcmp (fun hj => flagE_eq_of_mod_two_eq (hjump hj)) h⟩

/-! ### Registers -/

theorem eq_ofNat_of_toNat_eq {a : Byte} {k : RegIdx} (h : a.toNat = k.val) : a = BitVec.ofNat 8 k.val := by
  rw [← h, BitVec.ofNat_toNat, BitVec.setWidth_eq]

/-- A write of one register changes that one alone. -/
theorem State.eq_of_setReg_reg_ne {s : State} {r k : RegIdx} {v : Byte} (h : (s.setReg r v).reg k ≠ s.reg k) :
    k = r := by
  by_contra hne
  exact h (by rw [State.reg_setReg, if_neg hne])

/-- The register that a write to the register of operand byte `a` changes is the one `a` names. -/
theorem operand_of_setReg_reg_ne {a : Byte} {s : State} {r k : RegIdx} {v : Byte} (ha : a.toNat = r.val)
    (h : (s.setReg r v).reg k ≠ s.reg k) : a = BitVec.ofNat 8 k.val := by
  obtain rfl := State.eq_of_setReg_reg_ne h
  exact eq_ofNat_of_toNat_eq ha

theorem AluEffect.operand_of_reg_ne {v : Byte → Byte → Byte} {a b : Byte} {s t : State} {k : RegIdx}
    (h : AluEffect v a b s t) (hk : t.reg k ≠ s.reg k) : a = BitVec.ofNat 8 k.val := by
  obtain ⟨i, j, ha, -, rfl⟩ := h
  exact operand_of_setReg_reg_ne ha hk

/-- Settles O42: a fault changes no register, and each effect writes SP or the register of its first operand. -/
theorem registersChangeOnlyAsNamed : Obligations.RegistersChangeOnlyAsNamed := by
  intro i s t k h hk
  rcases exec_eq_next h with ⟨f, -, rfl⟩ | heff
  · exact absurd rfl hk
  cases i with
  | hlt =>
    obtain rfl : t = s.halt := heff
    exact absurd rfl hk
  | prn a | jmp a =>
    obtain ⟨r, -, rfl⟩ := heff
    exact absurd rfl hk
  | jeq a | jne a =>
    obtain ⟨r, -, rfl⟩ := heff
    split at hk <;> exact absurd rfl hk
  | cmp a b =>
    obtain ⟨r, r', -, -, rfl⟩ := heff
    exact absurd rfl hk
  | push a | call a =>
    obtain ⟨r, -, -, rfl⟩ := heff
    exact .inl ⟨State.eq_of_setReg_reg_ne hk, by simp [Instr.mnemonic]⟩
  | ret =>
    obtain ⟨-, rfl⟩ := heff
    exact .inl ⟨State.eq_of_setReg_reg_ne hk, by simp [Instr.mnemonic]⟩
  | pop a =>
    obtain ⟨r, ha, -, rfl⟩ := heff
    by_cases hsp : k = spIdx
    · exact .inl ⟨hsp, by simp [Instr.mnemonic]⟩
    · rw [State.advance_reg, popAdjust_reg, if_neg hsp] at hk
      exact .inr ⟨congrArg some (operand_of_setReg_reg_ne ha hk), by simp [Instr.mnemonic]⟩
  | not a | ldi a b =>
    obtain ⟨r, ha, rfl⟩ := heff
    exact .inr ⟨congrArg some (operand_of_setReg_reg_ne ha hk), by simp [Instr.mnemonic]⟩
  | div a b | mod a b =>
    exact .inr ⟨congrArg some (AluEffect.operand_of_reg_ne heff.1 hk), by simp [Instr.mnemonic]⟩
  | add a b | sub a b | mul a b | and a b | or a b | xor a b | shl a b | shr a b =>
    exact .inr ⟨congrArg some (AluEffect.operand_of_reg_ne heff hk), by simp [Instr.mnemonic]⟩

end Sys2Proof.Machine
end

section
/-!
The output stream and the output port (spec/10_state.md R33, R43): a byte appears only in a step that fetches PRN.
-/

namespace Sys2Proof.Machine

/-- The mnemonic of a window that holds PRN. -/
theorem State.Fetches.prn_of_instr_eq {s : State} {m : Mnemonic} {a b a' : Byte} (h : s.Fetches (opcodeMap m) a b)
    (hi : m.instr a b = .prn a') : s.Fetches 0x47 a' b := by
  obtain rfl : m = .prn := by rw [← Mnemonic.instr_mnemonic m a b, hi]; rfl
  cases hi
  exact h

/-- Settles O41: a fault and a halted core keep the output stream, and of the effects PRN's alone changes it. -/
theorem outputGrowsOnlyByPrn : Obligations.OutputGrowsOnlyByPrn := by
  intro s t h hne
  cases hrun : s.halted with
  | true =>
    rw [step_of_halted hrun] at h
    cases h
    exact absurd rfl hne
  | false =>
    rcases step_running_cases hrun h with ⟨-, rfl⟩ | ⟨-, -, rfl⟩ | ⟨m, a, b, hfetch, ⟨f, -, rfl⟩ | heff⟩
    · exact absurd rfl hne
    · exact absurd rfl hne
    · exact absurd rfl hne
    · rcases heff.output_cases with hout | ⟨a', r, hi, ha, hout⟩
      · exact absurd hout hne
      · exact ⟨a', b, r, hfetch.prn_of_instr_eq hi, ha, hout⟩

/-- The step of a window that holds PRN of a register. -/
theorem step_of_fetches_prn {s : State} {a b : Byte} {r : RegIdx} (h : s.Fetches 0x47 a b) (ha : a.toNat = r.val) :
    step s = .next ((s.emit (s.reg r)).advance 2) := by
  have hstep : step s = exec (.prn a) s := State.Fetches.step_eq_exec (m := .prn) h
  rw [hstep, exec_prn, execPrn, regIndex_of_eq ha]
  rfl

/-- The output port shows the first byte by which a running core's step extends the output stream (R43). -/
theorem outPort_eq_some_iff {p : Pins} {s : State} {v : Byte} :
    outPort p s = some v ↔ p.rst = false ∧ s.halted = false ∧
      ∃ t, step s = .next t ∧ (t.output.drop s.output.length).head? = some v := by
  unfold outPort
  cases p.rst <;> cases s.halted <;> cases step s <;> simp

/-- Settles O56: a byte on the port is a change of the output stream, which PRN alone makes. -/
theorem outputPortShowsThePrnThatCommits : Obligations.OutputPortShowsThePrnThatCommits := by
  intro p s v
  rw [outPort_eq_some_iff]
  constructor
  · rintro ⟨hrst, -, t, hstep, hhead⟩
    have hne : t.output ≠ s.output := fun heq => by simp [heq] at hhead
    obtain ⟨a, b, r, hfetch, ha, hout⟩ := outputGrowsOnlyByPrn s t hstep hne
    rw [hout, List.drop_left] at hhead
    exact ⟨hrst, a, b, r, hfetch, ha, (Option.some.inj hhead).symm⟩
  · rintro ⟨hrst, a, b, r, hfetch, ha, rfl⟩
    refine ⟨hrst, hfetch.running, _, step_of_fetches_prn hfetch ha, ?_⟩
    rw [State.advance_output, State.emit_output, List.drop_left]
    rfl

end Sys2Proof.Machine
end

section
/-!
Reset and the other ports (spec/10_state.md R36, R42, R45).
-/

namespace Sys2Proof.Machine

theorem pokeCell_of_lt {m : Memory} {x : Nat} {v : Byte} (h : x < memSize) : pokeCell m x v = m.write x v := if_pos h

theorem pokeCell_of_ge {m : Memory} {x : Nat} {v : Byte} (h : memSize ≤ x) : pokeCell m x v = m := if_neg (by omega)

theorem clockEdge_of_reset {p : Pins} (h : p.rst = true) (rstBefore : Bool) (s : State) :
    clockEdge rstBefore p s = .next (resetEdge rstBefore p s) := if_pos h

theorem clockEdge_of_no_reset {p : Pins} (h : p.rst = false) (rstBefore : Bool) (s : State) :
    clockEdge rstBefore p s = step s := if_neg (by simp [h])

theorem resetEdge_true_mem_of_loadWe {p : Pins} (h : p.loadWe = true) (s : State) :
    (resetEdge true p s).mem = pokeCell s.mem p.loadAddr.toNat p.loadData := if_pos h

/-- Settles O55: the load port pokes one cell on a later reset edge; the first clears memory, a step does not look at
the port. -/
theorem loadPortWritesOnlyInReset : Obligations.LoadPortWritesOnlyInReset := by
  intro p s hwe
  have hmem := resetEdge_true_mem_of_loadWe hwe s
  refine ⟨fun hrst hlt => ?_, fun hrst hge => ?_, fun hrst => ?_, fun hrst rstBefore => ?_⟩
  · rw [pokeCell_of_lt hlt] at hmem
    refine ⟨_, clockEdge_of_reset hrst true s, ?_, fun x hx => ?_⟩
    · rw [hmem, Memory.read_write_same]
    · rw [hmem, Memory.read_write_other _ _ _ _ hx]
  · exact ⟨_, clockEdge_of_reset hrst true s, hmem.trans (pokeCell_of_ge hge)⟩
  · exact ⟨_, clockEdge_of_reset hrst false s, Memory.read_nil⟩
  · rw [clockEdge_of_no_reset hrst, clockEdge_of_no_reset rfl]

/-- Settles O53: the reset state is a literal; r7 is the one register that is not 0. -/
theorem resetStateHoldsItsValues : Obligations.ResetStateHoldsItsValues :=
  ⟨by decide, rfl, rfl, rfl, rfl, rfl, rfl, rfl, rfl, rfl, Memory.read_nil⟩

/-- The low three bits of `dbg_addr` select the register (R40). -/
theorem extractLsb_low_three_toNat (x : Byte) : (x.extractLsb 2 0).toNat = x.toNat % 8 := by
  simp [BitVec.extractLsb_toNat]

theorem observe_memory (s : State) (addr : Byte) :
    observe s 0 addr = if addr.toNat < memSize then (s.mem.read addr.toNat).setWidth 9 else 0 := rfl

theorem observe_reg (s : State) (addr : Byte) :
    observe s 1 addr = (s.reg ⟨addr.toNat % 8, Nat.mod_lt _ (by decide)⟩).setWidth 9 := rfl

/-- Settles O57: each selection shows its byte, widened to nine bits. -/
theorem observationPortShowsTheSelectedValue : Obligations.ObservationPortShowsTheSelectedValue := by
  intro s addr
  refine ⟨fun hlt => ?_, fun hge => ?_, fun i hi => ?_, toNat_setWidth_nine s.pc, toNat_setWidth_nine s.fl⟩
  · rw [observe_memory, if_pos hlt, toNat_setWidth_nine]
  · rw [observe_memory, if_neg (Nat.not_lt.mpr hge)]
  · rw [extractLsb_low_three_toNat] at hi
    rw [observe_reg, toNat_setWidth_nine, show (⟨addr.toNat % 8, _⟩ : RegIdx) = i from Fin.ext hi]

end Sys2Proof.Machine
end

section
/-!
Memory and the instructions (spec/20_memory.md R51): what two memories can make of one instruction, and the one byte a
push writes.
-/

namespace Sys2Proof.Machine

/-! ### Steps that differ in memory alone -/

/-- The body of a step ends as another does, with the same fault or with a state that differs in memory alone. -/
def AgreeButMem (r r' : Except Raise State) : Prop := ∃ m, r' = r.map (·.setMem m)

theorem AgreeButMem.ok (t : State) (m : Memory) : AgreeButMem (.ok t) (.ok (t.setMem m)) := ⟨m, rfl⟩

theorem AgreeButMem.error (e : Raise) : AgreeButMem (.error e) (.error e) := ⟨[], rfl⟩

/-- A part of a step that does not see the memory, before parts that agree. -/
theorem AgreeButMem.bind {α : Type} (x : Except Raise α) {k k' : α → Except Raise State}
    (hk : ∀ y, AgreeButMem (k y) (k' y)) : AgreeButMem (x >>= k) (x >>= k') := by
  cases x with
  | error e => exact .error e
  | ok y => exact hk y

/-- A part of a step that writes memory, before parts that agree on what it leaves. -/
theorem AgreeButMem.bind_agree {r r' : Except Raise State} {k : State → Except Raise State} (hr : AgreeButMem r r')
    (hk : ∀ u m, AgreeButMem (k u) (k (u.setMem m))) : AgreeButMem (r >>= k) (r' >>= k) := by
  obtain ⟨m, rfl⟩ := hr
  cases r with
  | error e => exact .error e
  | ok u => exact hk u m

/-- The end of a step carries agreement of the bodies over to the answers (R95, R98). -/
theorem AgreeButMem.commit {s t : State} {m : Memory} {r r' : Except Raise State} (hr : AgreeButMem r r')
    (h : commit s r = .next t) : ∃ m', commit (s.setMem m) r' = .next (t.setMem m') := by
  obtain ⟨m', rfl⟩ := hr
  cases r with
  | error e => cases h; exact ⟨m, rfl⟩
  | ok u => cases h; exact ⟨m', rfl⟩

theorem memWrite_agreeButMem (s : State) (m : Memory) (x : Nat) (v : Byte) :
    AgreeButMem (memWrite s x v) (memWrite (s.setMem m) x v) := by
  by_cases hx : x < memSize
  · rw [memWrite_of_lt hx, memWrite_of_lt hx]
    exact .ok _ _
  · rw [memWrite_of_ge (Nat.not_lt.mp hx), memWrite_of_ge (Nat.not_lt.mp hx)]
    exact .error _

/-- A push of a byte that is not read from memory. -/
theorem pushByte_agreeButMem (s : State) (m : Memory) {v : State → Byte} (hv : ∀ u : State, v (u.setMem m) = v u) :
    AgreeButMem (pushByte s v) (pushByte (s.setMem m) v) := by
  have hval : v ((s.setMem m).setSp (s.sp - 1)) = v (s.setSp (s.sp - 1)) := hv (s.setSp _)
  rw [pushByte, pushByte, State.setMem_sp, hval]
  exact memWrite_agreeButMem (s.setSp (s.sp - 1)) m _ _

/-- A pop reads the byte at SP alone. -/
theorem popRead_setMem {s : State} {m : Memory} (h : m.read s.sp.toNat = s.mem.read s.sp.toNat) :
    popRead (s.setMem m) = popRead s := by
  rw [popRead, popRead, memRead, memRead, State.setMem_sp, State.setMem_mem, h]

/-- Every instruction carries any change of memory along, POP and RET one that keeps the byte at SP (R51). -/
theorem exec_setMem {i : Instr} {s t : State} {m : Memory}
    (hpop : i.mnemonic = .pop ∨ i.mnemonic = .ret → m.read s.sp.toNat = s.mem.read s.sp.toNat)
    (h : exec i s = .next t) : ∃ m', exec i (s.setMem m) = .next (t.setMem m') := by
  cases i with
  | hlt =>
    cases h
    exact ⟨m, rfl⟩
  | push a | call a =>
    exact AgreeButMem.commit
      (.bind _ fun _ => .bind_agree (pushByte_agreeButMem s m fun _ => rfl) fun _ m' => .ok _ m') h
  | ret =>
    have hread := popRead_setMem (hpop (.inr rfl))
    exact AgreeButMem.commit (hread ▸ .bind _ fun _ => .ok _ m) h
  | pop a =>
    have hread := popRead_setMem (hpop (.inl rfl))
    exact AgreeButMem.commit (.bind _ fun _ => hread ▸ .bind _ fun _ => .ok _ m) h
  | jeq a | jne a =>
    refine AgreeButMem.commit (.bind _ fun r => ?_) h
    rw [State.setMem_fl]
    split <;> exact .ok _ m
  | cmp a b => exact AgreeButMem.commit (.bind _ fun _ => .bind _ fun _ => .ok _ m) h
  | prn a | jmp a | not a | ldi a b => exact AgreeButMem.commit (.bind _ fun _ => .ok _ m) h
  | add a b | sub a b | mul a b | div a b | mod a b | and a b | or a b | xor a b | shl a b | shr a b =>
    exact AgreeButMem.commit (.bind _ fun _ => .bind _ fun _ => .bind _ fun _ => .ok _ m) h

/-! ### The bytes an instruction changes -/

/-- A write of one byte changes that one alone. -/
theorem Memory.eq_of_read_write_ne {m : Memory} {x y : Nat} {v : Byte} (h : (m.write y v).read x ≠ m.read x) :
    x = y := by
  by_contra hne
  exact h (Memory.read_write_other m y x v hne)

/-- An effect keeps memory, but for the byte PUSH and CALL write at the decremented SP (R120, R130). -/
theorem Effect.mem_cases {i : Instr} {s t : State} (h : Effect i s t) :
    t.mem = s.mem ∨
    (i.mnemonic = .push ∨ i.mnemonic = .call) ∧ ∃ v, t.mem = s.mem.write (s.sp - 1).toNat v := by
  cases i with
  | push a | call a =>
    obtain ⟨r, -, -, rfl⟩ := h
    exact .inr ⟨by simp [Instr.mnemonic], _, rfl⟩
  | hlt =>
    obtain rfl : t = s.halt := h
    exact .inl rfl
  | ret =>
    obtain ⟨-, rfl⟩ := h
    exact .inl rfl
  | pop a =>
    obtain ⟨r, -, -, rfl⟩ := h
    exact .inl rfl
  | prn a | jmp a | not a | ldi a b =>
    obtain ⟨r, -, rfl⟩ := h
    exact .inl rfl
  | jeq a | jne a =>
    obtain ⟨r, -, rfl⟩ := h
    split <;> exact .inl rfl
  | cmp a b =>
    obtain ⟨r, r', -, -, rfl⟩ := h
    exact .inl rfl
  | div a b | mod a b =>
    obtain ⟨⟨r, r', -, -, rfl⟩, -⟩ := h
    exact .inl rfl
  | add a b | sub a b | mul a b | and a b | or a b | xor a b | shl a b | shr a b =>
    obtain ⟨r, r', -, -, rfl⟩ := h
    exact .inl rfl

/-- Settles O40: only the effects of PUSH and CALL write memory, and every instruction carries a change of memory
along. -/
theorem memoryIsReachedOnlyThroughTheStack : Obligations.MemoryIsReachedOnlyThroughTheStack := by
  refine ⟨fun i s t x h hne => ?_, fun i s t m h hpop => exec_setMem hpop h⟩
  rcases exec_eq_next h with ⟨f, -, rfl⟩ | heff
  · exact absurd rfl hne
  rcases heff.mem_cases with hmem | ⟨hi, v, hmem⟩
  · exact absurd (congrArg (·.read x) hmem) hne
  · rw [hmem] at hne
    exact ⟨hi, Memory.eq_of_read_write_ne hne⟩

end Sys2Proof.Machine
end

section
/-!
Memory and the fetch (spec/20_memory.md R55, R62): a PC outside memory, and a byte pushed into a fetch window.
-/

namespace Sys2Proof.Machine

/-! ### JMP -/

/-- The step of a window that holds JMP of a register (R132). -/
theorem step_of_fetches_jmp {s : State} {a b : Byte} {r : RegIdx} (h : s.Fetches 0x54 a b) (ha : a.toNat = r.val) :
    step s = .next (s.setPc (s.reg r)) := by
  have hstep : step s = exec (.jmp a) s := State.Fetches.step_eq_exec (m := .jmp) h
  rw [hstep, exec_jmp, execJmp, regIndex_of_eq ha]
  rfl

/-- A running core whose PC is outside memory faults with the PC as the address (R55, R91). -/
theorem step_of_pc_ge {s : State} (hrun : s.halted = false) (hpc : memSize ≤ s.pc.toNat) :
    step s = .next (s.faulted .faultOutOfRange 0 (s.pc.setWidth 9)) := by
  have hfetch : ¬ s.fetchable := by unfold State.fetchable; omega
  rw [step_of_running hrun, fetchDecode_of_not_fetchable hfetch, if_pos hpc, ← BitVec.ofNat_toNat]
  rfl

/-- Settles O47: JMP sets the PC alone, and the fetch there faults. -/
theorem jumpOutsideMemoryFaultsAtTheNextFetch : Obligations.JumpOutsideMemoryFaultsAtTheNextFetch := by
  intro s a b i hfetch ha hge
  exact ⟨s.setPc (s.reg i), step_of_fetches_jmp hfetch ha, hfetch.running, rfl,
    step_of_pc_ge (s := s.setPc (s.reg i)) hfetch.running hge⟩

/-! ### PUSH -/

/-- After a push that commits, only SP, the byte at the decremented SP and the PC have changed. -/
theorem confined_push (s : State) (v : Byte) :
    Confined [7] [(s.sp - 1).toNat] s
      (((s.setSp (s.sp - 1)).setMem (s.mem.write (s.sp - 1).toNat v)).advance 2) where
  regs k hk := by
    have hne : k ≠ spIdx := by simpa using hk
    rw [State.advance_reg, State.setMem_reg, State.reg_setSp, if_neg hne]
  mem x hx := Memory.read_write_other _ _ _ _ (by simpa using hx)
  fl := rfl
  output := rfl
  run := ⟨rfl, rfl, rfl, rfl, rfl⟩

/-- PC + 2 is exact after a fetch that succeeds (R26, R96). -/
theorem State.advance_two_pc_toNat {s : State} (h : s.fetchable) : (s.advance 2).pc.toNat = s.pc.toNat + 2 := by
  have h : s.pc.toNat + 2 < 255 := h
  rw [State.advance_pc, BitVec.toNat_add, BitVec.toNat_ofNat]
  omega

/-- PUSH of a register when the decremented SP is inside memory (R120). -/
theorem exec_push_of_lt {s : State} {a : Byte} {r : RegIdx} (ha : a.toNat = r.val)
    (hlt : (s.sp - 1).toNat < memSize) :
    ∃ t, exec (.push a) s = .next t ∧ t.sp = s.sp - 1 ∧
      t.mem.read (s.sp - 1).toNat = (if r = 7 then s.sp - 1 else s.reg r) ∧
      Confined [7] [(s.sp - 1).toNat] s t ∧ PcAdvanced 2 s t := by
  have hexec : exec (.push a) s = .next (((s.setSp (s.sp - 1)).setMem
      (s.mem.write (s.sp - 1).toNat ((s.setSp (s.sp - 1)).reg r))).advance 2) := by
    rcases pushByte_cases s (·.reg r) with ⟨-, hp⟩ | ⟨hge, -⟩
    · rw [exec_push, execPush, regIndex_of_eq ha]
      simp only [bind, Except.bind, hp]
      rfl
    · omega
  refine ⟨_, hexec, State.sp_setSp s _, ?_, confined_push s _, State.advance_two_pc_toNat (s := s)⟩
  rw [State.advance_mem, State.setMem_mem, Memory.read_write_same, State.reg_setSp]

/-- A fetch whose window holds an address reads the byte there, as opcode or as operand (R91). -/
theorem State.Fetches.eq_of_read {u : State} {op a b v : Byte} {x : Nat} (h : u.Fetches op a b)
    (hx : u.mem.read x = v) :
    (u.pc.toNat = x → op = v) ∧ (u.pc.toNat + 1 = x → a = v) ∧ (u.pc.toNat + 2 = x → b = v) := by
  refine ⟨?_, ?_, ?_⟩
  · rintro rfl; exact h.opcode.symm.trans hx
  · rintro rfl; exact h.first.symm.trans hx
  · rintro rfl; exact h.second.symm.trans hx

/-- Settles O48: the step is the PUSH that was fetched, and a later fetch reads memory after the write. -/
theorem pushedByteIsFetchedByTheNextStep : Obligations.PushedByteIsFetchedByTheNextStep := by
  intro s a b i x hfetch ha hx hlo hhi v
  have hin : s.pc.toNat + 2 < memSize := hfetch.inRange
  have hstep : step s = exec (.push a) s := State.Fetches.step_eq_exec (m := .push) hfetch
  subst hx
  obtain ⟨t, hexec, hsp, hread, hconf, hadv⟩ := exec_push_of_lt ha (hhi.trans_lt hin)
  have hpc : t.pc.toNat = s.pc.toNat + 2 := hadv hin
  refine ⟨hstep, t, hstep.trans hexec, hsp, hread, hconf, hpc, fun u op a' b' hmem hu => ?_, fun hx hnext => ?_⟩
  · exact hu.eq_of_read (hmem ▸ hread)
  · have hkept : ∀ y, s.pc.toNat + 2 < y → t.mem.read y = s.mem.read y := fun y hy =>
      hconf.mem y (by rw [List.mem_singleton]; omega)
    exact
      { running := hconf.run.halted.trans hfetch.running
        inRange := by unfold State.fetchable; omega
        opcode := by rw [hpc, ← hx, hread]
        first := by rw [hpc]; exact hkept _ (by omega)
        second := by rw [hpc]; exact hkept _ (by omega) }

end Sys2Proof.Machine
end

section
/-!
The boot sequence (spec/20_memory.md R56, spec/70_reset_and_hazards.md R194): the load edges write an image from an
address on, one byte an edge.
-/

namespace Sys2Proof.Machine

theorem validImage_iff {image : List Nat} :
    validImage image = true ↔ image.length ≤ memSize ∧ ∀ v ∈ image, v < 256 := by
  simp [validImage]

/-- A load edge in reset writes its byte (R42). -/
theorem clockEdge_load {k : Nat} (hk : k < memSize) (v : Byte) (m : Memory) :
    clockEdge true (Pins.load (BitVec.ofNat 8 k) v) (State.reset.setMem m) =
      .next (State.reset.setMem (m.write k v)) := by
  have hk8 : (BitVec.ofNat 8 k).toNat = k := Nat.mod_eq_of_lt (Nat.lt_trans hk (by decide))
  rw [clockEdge_of_reset rfl, ← pokeCell_of_lt hk]
  exact congrArg (fun x => Host.Outcome.next (State.reset.setMem (pokeCell m x v))) hk8

/-- The load edges of an image that fits: its bytes stand from `k` on, every other byte is as before. -/
theorem clockRun_loadEdges {k : Nat} {image : List Nat} (hfit : k + image.length ≤ memSize) (m : Memory) :
    ∃ m', clockRun true (loadEdges k image) (State.reset.setMem m) = .next (State.reset.setMem m') ∧
      (∀ j (h : j < image.length), m'.read (k + j) = BitVec.ofNat 8 image[j]) ∧
      ∀ x, x < k ∨ k + image.length ≤ x → m'.read x = m.read x := by
  induction image generalizing k m with
  | nil => exact ⟨m, rfl, fun j h => absurd h (Nat.not_lt_zero j), fun _ _ => rfl⟩
  | cons v rest ih =>
    have hfit : k + (rest.length + 1) ≤ memSize := hfit
    obtain ⟨m', hrun, hat, hkept⟩ := ih (k := k + 1) (by omega) (m.write k (BitVec.ofNat 8 v))
    refine ⟨m', ?_, fun j h => ?_, fun x hx => ?_⟩
    · rw [loadEdges, clockRun, clockEdge_load (by omega)]
      exact hrun
    · cases j with
      | zero => exact (hkept k (.inl (Nat.lt_succ_self k))).trans (Memory.read_write_same ..)
      | succ j =>
        rw [← Nat.succ_add_eq_add_succ]
        exact hat j (Nat.lt_of_succ_lt_succ h)
    · rw [List.length_cons] at hx
      rw [hkept x (by omega), Memory.read_write_other _ _ _ _ (by omega)]

/-- Settles O58: after the reset edge of a valid image's boot, the load edges place it in the cleared memory. -/
theorem bootPlacesTheImage : Obligations.BootPlacesTheImage := by
  intro image
  rw [← validImage_iff]
  refine ⟨fun hvalid => ?_, fun hbad => if_neg hbad⟩
  obtain ⟨hlen, hbytes⟩ := validImage_iff.mp hvalid
  obtain ⟨m, hrun, hat, hkept⟩ := clockRun_loadEdges (k := 0) (image := image) (by omega) State.reset.mem
  refine ⟨State.reset.setMem m, (if_pos hvalid).trans hrun, fun k h => ?_, fun k h => ?_, rfl⟩
  · have hbyte := hat k h
    rw [Nat.zero_add] at hbyte
    rw [State.setMem_mem, hbyte]
    exact Nat.mod_eq_of_lt (hbytes _ (List.getElem_mem h))
  · exact hkept k (.inr (by omega))

end Sys2Proof.Machine
end

section
/-!
The round trip of the encoding (spec/30_encoding.md R70 to R77). Every instruction is that of its mnemonic and two bytes
(`Instr.exists_eq_instr`), of which the format says how many count: `encode_instr` writes that many,
`decodeBytes_eq_ok_iff` takes that many off, and `Mnemonic.instr_eq_of_agree` says that the others do not matter.
-/

namespace Sys2Proof

/-! ### The bytes after the opcode -/

/-- How many operand bytes follow the opcode (R71). -/
def Mnemonic.operandBytes (m : Mnemonic) : Nat := m.format.length - 1

theorem Mnemonic.format_length (m : Mnemonic) : m.format.length = m.operandBytes + 1 := by
  cases m <;> rfl

theorem Mnemonic.operandBytes_le_two (m : Mnemonic) : m.operandBytes ≤ 2 := by
  cases m <;> decide

theorem Mnemonic.instr_length (m : Mnemonic) (a b : Byte) : (m.instr a b).length = m.operandBytes + 1 := by
  rw [Instr.length, instr_mnemonic, format_length]

/-- An instruction is that of its mnemonic and of the bytes after the opcode in its encoding. -/
theorem Instr.exists_eq_instr (i : Instr) : ∃ m a b, i = Mnemonic.instr m a b := by
  refine ⟨i.mnemonic, byteAt (encode i) 1, byteAt (encode i) 2, ?_⟩
  cases i <;> rfl

/-- The encoding is the opcode and as many operand bytes as the format has (R70, R71). -/
theorem encode_instr (m : Mnemonic) (a b : Byte) :
    encode (m.instr a b) = opcodeMap m :: [a, b].take m.operandBytes := by
  cases m <;> rfl

/-- An operand byte the format does not include takes no part in the instruction (R77). -/
theorem Mnemonic.instr_eq_of_agree {m : Mnemonic} {a b a' b' : Byte} (ha : 0 < m.operandBytes → a' = a)
    (hb : 1 < m.operandBytes → b' = b) : m.instr a' b' = m.instr a b := by
  cases m with
  | hlt | ret => rfl
  | push | pop | prn | call | jmp | jeq | jne | not =>
    obtain rfl := ha (by decide)
    rfl
  | ldi | add | sub | mul | div | mod | cmp | and | or | xor | shl | shr =>
    rw [ha (by decide), hb (by decide)]

/-! ### Decoding a byte list -/

theorem byteAt_take_append {l : List Byte} {j k : Nat} (rest : List Byte) (hj : j < k) (hk : k ≤ l.length) :
    byteAt (l.take k ++ rest) j = byteAt l j := by
  have hlen : j < (l.take k).length := by rw [List.length_take]; omega
  simp [byteAt, List.getElem?_append_left hlen, List.getElem?_take_of_lt hj]

/-- The operand bytes a window holds are the bytes after the opcode. -/
theorem take_byteAt {tail : List Byte} {k : Nat} (hk : k ≤ 2) (htail : k ≤ tail.length) :
    [byteAt tail 0, byteAt tail 1].take k = tail.take k := by
  match k, tail, htail with
  | 0, _, _ => rfl
  | 1, _ :: _, _ => rfl
  | 2, _ :: _ :: _, _ => rfl

/-- What a byte list that decodes looks like, and what it decodes to (R71, R74). -/
theorem decodeBytes_eq_ok_iff {bytes : List Byte} {i : Instr} {rest : List Byte} :
    decodeBytes bytes = .ok (i, rest) ↔
      ∃ m tail, bytes = opcodeMap m :: tail ∧ m.operandBytes ≤ tail.length ∧
        i = m.instr (byteAt tail 0) (byteAt tail 1) ∧ rest = tail.drop m.operandBytes := by
  cases bytes with
  | nil => simp [decodeBytes]
  | cons op tail =>
    rcases decode_cases op (byteAt tail 0) (byteAt tail 1) with ⟨m, rfl, hd⟩ | ⟨hop, hd⟩
    · simp only [decodeBytes, hd, Mnemonic.instr_length, List.length_cons, Nat.add_le_add_iff_right,
        List.drop_succ_cons]
      constructor
      · intro h
        split at h
        · cases h
          exact ⟨m, tail, rfl, ‹_›, rfl, rfl⟩
        · cases h
      · rintro ⟨m', tail', heq, hlen, rfl, rfl⟩
        obtain ⟨hm, rfl⟩ := List.cons.inj heq
        obtain rfl := opcodeMap_injective m m' hm
        rw [if_pos hlen]
    · simp only [decodeBytes, hd, reduceCtorEq, false_iff]
      rintro ⟨m, tail', heq, -⟩
      exact hop m (List.cons.inj heq).1

/-! ### The obligations -/

/-- Settles O26: the decoder reads the operand bytes the encoding has written, and takes them off. -/
theorem decodingInvertsEncoding : Obligations.DecodingInvertsEncoding := by
  intro i rest
  obtain ⟨m, a, b, rfl⟩ := i.exists_eq_instr
  have hk : m.operandBytes ≤ [a, b].length := m.operandBytes_le_two
  have hlen : ([a, b].take m.operandBytes).length = m.operandBytes := List.length_take_of_le hk
  rw [encode_instr, decodeBytes_eq_ok_iff]
  refine ⟨m, [a, b].take m.operandBytes ++ rest, rfl, ?_, ?_, (List.drop_left' hlen).symm⟩
  · rw [List.length_append, hlen]
    exact Nat.le_add_right ..
  · refine (Mnemonic.instr_eq_of_agree (fun h => ?_) fun h => ?_).symm <;> exact byteAt_take_append rest h hk

/-- Settles O27: the encoding writes the opcode and the operand bytes the decoder took off. -/
theorem encodingInvertsDecoding : Obligations.EncodingInvertsDecoding := by
  intro bytes i rest h
  obtain ⟨m, tail, rfl, hlen, rfl, rfl⟩ := decodeBytes_eq_ok_iff.mp h
  rw [encode_instr, take_byteAt m.operandBytes_le_two hlen, List.cons_append, List.take_append_drop]

/-- Settles O28: the opcode decides the mnemonic, and its format the bytes that count. -/
theorem bytesBeyondTheLengthAreIgnored : Obligations.BytesBeyondTheLengthAreIgnored := by
  intro op a b a' b' i h ha hb
  rcases decode_cases op a b with ⟨m, rfl, hd⟩ | ⟨-, hd⟩
  · obtain rfl : m.instr a b = i := Except.ok.inj (hd.symm.trans h)
    rw [Mnemonic.instr_length] at ha hb
    rw [Machine.decode_opcodeMap, Mnemonic.instr_eq_of_agree (fun hk => ha (by omega)) fun hk => hb (by omega)]
  · rw [hd] at h
    cases h

/-- Settles O24, by running the decoder on each word. -/
theorem decodingReadsTheSpecsExamples : Obligations.DecodingReadsTheSpecsExamples := by
  unfold Obligations.DecodingReadsTheSpecsExamples
  decide

end Sys2Proof
end

section
/-!
Unknown opcodes (spec/30_encoding.md R76, spec/60_exceptions.md R174): how many bytes are one, and the step that
fetches one.
-/

namespace Sys2Proof.Machine

theorem opcodes_nodup : opcodes.Nodup := by decide

/-- The byte values that are opcodes are the 22 listed ones. -/
theorem length_filter_mem_opcodes :
    ((List.range 256).filter fun n => decide (BitVec.ofNat 8 n ∈ opcodes)).length = 22 := by
  have hmem : ∀ n, n ∈ (List.range 256).filter (fun n => decide (BitVec.ofNat 8 n ∈ opcodes)) ↔
      n ∈ opcodes.map BitVec.toNat := by
    intro n
    rw [List.mem_filter, List.mem_range, decide_eq_true_iff, List.mem_map]
    constructor
    · rintro ⟨hlt, hn⟩
      exact ⟨_, hn, Nat.mod_eq_of_lt hlt⟩
    · rintro ⟨op, hop, rfl⟩
      exact ⟨op.isLt, by rwa [BitVec.ofNat_toNat, BitVec.setWidth_eq]⟩
  have hnodup : (opcodes.map BitVec.toNat).Nodup := opcodes_nodup.map fun _ _ => BitVec.eq_of_toNat_eq
  exact ((List.perm_ext_iff_of_nodup (List.nodup_range.filter _) hnodup).mpr hmem).length_eq

/-- The step that fetches an unknown opcode enters its fault (R174). -/
theorem State.Fetches.step_of_not_mem_opcodes {s : State} {op a b : Byte} (h : s.Fetches op a b)
    (hop : op ∉ opcodes) : step s = .next (s.enterFault (.unknownOpcode op)) := by
  rw [step_of_running h.running]
  rcases fetchDecode_cases s with ⟨hf, -⟩ | ⟨-, -, he⟩ | ⟨-, m, hm, -⟩
  · exact absurd h.inRange hf
  · rw [he, h.opcode]
  · exact absurd (mem_opcodes_iff.mpr ⟨m, h.opcode.symm.trans hm⟩) hop

/-- Settles O29: of the 256 byte values all but the 22 of the map are left, and decode fails on those alone. -/
theorem unknownOpcodesFault : Obligations.UnknownOpcodesFault := by
  refine ⟨opcodes_nodup, ?_, fun op a b hop => ?_, fun s op a b h hop => h.step_of_not_mem_opcodes hop⟩
  · have hsum := List.length_eq_length_filter_add (l := List.range 256) fun n => decide (BitVec.ofNat 8 n ∈ opcodes)
    rw [List.length_range, length_filter_mem_opcodes] at hsum
    simp only [decide_not]
    omega
  · obtain ⟨m, rfl⟩ := mem_opcodes_iff.mp hop
    exact ⟨m.instr a b, decode_opcodeMap m a b⟩

end Sys2Proof.Machine
end

section
/-!
The cycle of a step (spec/40_cycle.md R91 to R100): the window a step fetches, what it runs, and what it leaves when it
faults or the core is halted.
-/

namespace Sys2Proof.Machine

/-! ### Fetch and run -/

/-- Settles O30: fetch and decode answers the decoded instruction, or the first address of the window that is
missing. -/
theorem everyStepFetchesThreeBytes : Obligations.EveryStepFetchesThreeBytes := by
  intro s hrun
  refine ⟨fun hin i hdecode => ?_, fun hout => ?_⟩
  · rw [step_of_running hrun, fetchDecode_of_fetchable hin, hdecode]
  · rw [step_of_running hrun, fetchDecode_of_not_fetchable (Nat.not_lt.mpr hout)]
    rfl

/-- Settles O31: the window of the fetch is the one that is decoded. -/
theorem stepRunsTheDecodedInstruction : Obligations.StepRunsTheDecodedInstruction := by
  intro s op a b i h hdecode
  obtain ⟨hfetched, -⟩ := everyStepFetchesThreeBytes s h.running
  refine hfetched h.inRange i ?_
  rw [h.opcode, h.first, h.second, hdecode]

/-- Settles O35: a halted core stays, a fault of fetch or decode is a next state, and every instruction answers one. -/
theorem everyStepAnswersANextState : Obligations.EveryStepAnswersANextState := by
  intro s
  cases hrun : s.halted with
  | true => exact ⟨s, step_of_halted hrun⟩
  | false =>
    rw [step_of_running hrun]
    cases fetchDecode s with
    | error f => exact ⟨_, rfl⟩
    | ok i => exact exec_total i s

/-! ### Halted and faulting steps -/

/-- Settles O36, by induction on the edges: without reset each is a step of a halted core. -/
theorem haltedCoreChangesNothing : Obligations.HaltedCoreChangesNothing := by
  intro s rstBefore ps hhalted hrst
  induction ps generalizing rstBefore with
  | nil => rfl
  | cons p rest ih =>
    obtain ⟨hp, hrest⟩ := List.forall_mem_cons.mp hrst
    rw [clockRun, clockEdge_of_no_reset hp, step_of_halted hhalted]
    exact ih p.rst hrest

/-- An instruction that raises nothing leaves a running core with status RUNNING or HALT (R95, R112). -/
theorem Effect.status_cases {i : Instr} {s t : State} (h : Effect i s t) (hs : s.status = .running) :
    t.status = .running ∨ t.status = .halt := by
  by_cases hi : i = .hlt
  · subst hi
    obtain rfl : t = s.halt := h
    exact .inr rfl
  · exact .inl ((h.runKept hi).status.trans hs)

/-- Settles O34: each fault of a step is a fault entry at the state before it, and an effect leaves RUNNING or HALT. -/
theorem faultingStepsCommitNothing : Obligations.FaultingStepsCommitNothing := by
  intro s t hrun hstatus hstep hne hnh
  rcases step_running_cases hrun hstep with ⟨-, rfl⟩ | ⟨-, -, rfl⟩ | ⟨m, a, b, -, ⟨f, -, rfl⟩ | heff⟩
  · exact ⟨rfl, rfl, rfl⟩
  · exact ⟨rfl, rfl, rfl⟩
  · exact ⟨rfl, rfl, rfl⟩
  · exact absurd (heff.status_cases hstatus) (not_or.mpr ⟨hne, hnh⟩)

end Sys2Proof.Machine
end

section
/-!
The register check (spec/40_cycle.md R93): every instruction begins with the checks of its register operands, `a` before
`b`, and the first that fails ends it.
-/

namespace Sys2Proof.Machine

/-- `r` is the first of the operand bytes that selects no register (R24). -/
def FirstNonRegister (operands : List Byte) (r : Byte) : Prop :=
  operands.find? (fun x => decide (8 ≤ x.toNat)) = some r

theorem not_firstNonRegister_nil (r : Byte) : ¬ FirstNonRegister [] r := (nomatch ·)

theorem firstNonRegister_cons_iff {a r : Byte} {rest : List Byte} :
    FirstNonRegister (a :: rest) r ↔ (8 ≤ a.toNat ∧ a = r) ∨ (a.toNat < 8 ∧ FirstNonRegister rest r) := by
  simp [FirstNonRegister, List.find?_cons_eq_some]

/-- A step that begins with the check of the first operand faults on `r`: at that check, or, by `hk`, in what follows
it. -/
theorem FirstNonRegister.commit_cons {a r : Byte} {rest : List Byte} {s : State} {k : RegIdx → Except Raise State}
    (h : FirstNonRegister (a :: rest) r)
    (hk : ∀ i, FirstNonRegister rest r → commit s (k i) = .next (s.enterFault (.outOfRangeRegister r))) :
    commit s (regIndex a >>= k) = .next (s.enterFault (.outOfRangeRegister r)) := by
  rcases firstNonRegister_cons_iff.mp h with ⟨hge, rfl⟩ | ⟨hlt, hrest⟩
  · rw [regIndex_of_ge hge]
    rfl
  · rw [regIndex_of_eq (i := ⟨a.toNat, hlt⟩) rfl]
    exact hk _ hrest

theorem FirstNonRegister.commit_one {a r : Byte} {s : State} {k : RegIdx → Except Raise State}
    (h : FirstNonRegister [a] r) :
    commit s (regIndex a >>= k) = .next (s.enterFault (.outOfRangeRegister r)) :=
  h.commit_cons fun _ hnil => absurd hnil (not_firstNonRegister_nil r)

theorem FirstNonRegister.commit_two {a b r : Byte} {s : State} {k : RegIdx → RegIdx → Except Raise State}
    (h : FirstNonRegister [a, b] r) :
    commit s (regIndex a >>= fun i => regIndex b >>= k i) = .next (s.enterFault (.outOfRangeRegister r)) :=
  h.commit_cons fun _ hb => hb.commit_one

/-- Settles O32: each instruction begins with the checks of its register operands, in order. -/
theorem registerOperandsAreCheckedInOrder : Obligations.RegisterOperandsAreCheckedInOrder := by
  intro i r s h
  cases i with
  | hlt | ret => exact absurd h (not_firstNonRegister_nil r)
  | push a | pop a | prn a | call a | jmp a | jeq a | jne a | not a | ldi a b =>
    exact FirstNonRegister.commit_one h
  | add a b | sub a b | mul a b | div a b | mod a b | cmp a b | and a b | or a b | xor a b | shl a b | shr a b =>
    exact FirstNonRegister.commit_two h

end Sys2Proof.Machine
end

section
/-!
The default advance (spec/40_cycle.md R96).
-/

namespace Sys2Proof

theorem Instr.length_le_three (i : Instr) : i.length ≤ 3 := by
  rw [Instr.length, Mnemonic.format_length]
  exact Nat.succ_le_succ i.mnemonic.operandBytes_le_two

end Sys2Proof

namespace Sys2Proof.Machine

/-- The instructions that receive the default advance (R96). -/
def advancingMnemonics : List Mnemonic :=
  [.ldi, .prn, .push, .pop, .add, .sub, .mul, .div, .mod, .and, .or, .xor, .not, .shl, .shr, .cmp]

theorem AluEffect.pc_eq {v : Byte → Byte → Byte} {a b : Byte} {s t : State} (h : AluEffect v a b s t) :
    t.pc = (s.advance 3).pc := by
  obtain ⟨i, j, -, -, rfl⟩ := h
  rfl

/-- The effect of an instruction with the default advance moves the PC on by its length. -/
theorem Effect.pc_eq_advance_length {i : Instr} {s t : State} (h : Effect i s t)
    (hi : i.mnemonic ∈ advancingMnemonics) : t.pc = (s.advance i.length).pc := by
  cases i with
  | hlt | ret | call a | jmp a | jeq a | jne a => simp [advancingMnemonics, Instr.mnemonic] at hi
  | push a | pop a =>
    obtain ⟨r, -, -, rfl⟩ := h
    rfl
  | prn a | not a | ldi a b =>
    obtain ⟨r, -, rfl⟩ := h
    rfl
  | cmp a b =>
    obtain ⟨r, r', -, -, rfl⟩ := h
    rfl
  | div a b | mod a b => exact AluEffect.pc_eq h.1
  | add a b | sub a b | mul a b | and a b | or a b | xor a b | shl a b | shr a b => exact AluEffect.pc_eq h

/-- After a fetch that succeeds the sum of the PC and a length is at most 255, so eight bits hold it (R26, R96). -/
theorem State.advance_pc_toNat {s : State} {n : Nat} (h : s.fetchable) (hn : n ≤ 3) :
    (s.advance n).pc.toNat = s.pc.toNat + n := by
  have h : s.pc.toNat + 2 < 255 := h
  rw [State.advance_pc, BitVec.toNat_add, BitVec.toNat_ofNat]
  omega

/-- Settles O38: a fault halts the core, and the effect of an instruction of the list advances the PC. -/
theorem defaultAdvanceIsExact : Obligations.DefaultAdvanceIsExact := by
  intro s t op a b i hfetch hdecode hi hstep hrun
  rw [stepRunsTheDecodedInstruction s op a b i hfetch hdecode] at hstep
  rcases exec_eq_next hstep with ⟨f, -, rfl⟩ | heff
  · cases hrun
  · rw [heff.pc_eq_advance_length hi, State.advance_pc_toNat hfetch.inRange i.length_le_three]

end Sys2Proof.Machine
end

section
/-!
LDI, PRN and HLT (spec/41_ldi_prn_hlt.md R110 to R112): the state each answers, and the frame of an instruction that
writes one register and receives the default advance.
-/

namespace Sys2Proof.Machine

/-! ### The default advance and its frame -/

/-- A new PC that is the old one advanced by a length is the exact sum (R96). -/
theorem pcAdvanced_of_pc_eq {s t : State} {n : Nat} (hpc : t.pc = (s.advance n).pc) (hn : n ≤ 3) : PcAdvanced n s t :=
  fun hfetch => by rw [hpc, State.advance_pc_toNat hfetch hn]

/-- An instruction that writes one register changes nothing else but the PC (R21, R94). -/
theorem confined_setReg_advance (s : State) (i : RegIdx) (v : Byte) (n : Nat) :
    Confined [i] [] s ((s.setReg i v).advance n) where
  regs k hk := by
    have hne : k ≠ i := by simpa using hk
    rw [State.advance_reg, State.reg_setReg, if_neg hne]
  mem _ _ := rfl
  fl := rfl
  output := rfl
  run := ⟨rfl, rfl, rfl, rfl, rfl⟩

/-! ### LDI -/

/-- LDI of a byte that selects a register (R110). -/
theorem exec_ldi_of_reg {a : Byte} {i : RegIdx} (ha : a.toNat = i.val) (imm : Byte) (s : State) :
    exec (.ldi a imm) s = .next ((s.setReg i imm).advance 3) := by
  rw [exec_ldi, execLdi, regIndex_of_eq ha]
  rfl

/-- Settles O1: LDI writes its register alone and advances by its length. -/
theorem ldiLoadsTheImmediate : Obligations.LdiLoadsTheImmediate := by
  intro a imm i s ha
  exact ⟨decode_opcodeMap .ldi a imm, _, exec_ldi_of_reg ha imm s, State.reg_setReg_same s i imm,
    confined_setReg_advance s i imm 3, pcAdvanced_of_pc_eq rfl le_rfl⟩

/-! ### PRN -/

/-- PRN of a byte that selects a register (R111). -/
theorem exec_prn_of_reg {a : Byte} {i : RegIdx} (ha : a.toNat = i.val) (s : State) :
    exec (.prn a) s = .next ((s.emit (s.reg i)).advance 2) := by
  rw [exec_prn, execPrn, regIndex_of_eq ha]
  rfl

/-- Settles O2: PRN writes the output stream alone, and the port shows the PRN that commits. -/
theorem prnEmitsTheRegister : Obligations.PrnEmitsTheRegister := by
  intro a i s ha
  refine ⟨fun b => decode_opcodeMap .prn a b, ⟨_, exec_prn_of_reg ha s, ?_⟩, fun b p hfetch hrst => ?_⟩
  · exact ⟨State.emit_output s _, fun _ _ => rfl, fun _ _ => rfl, rfl, ⟨rfl, rfl, rfl, rfl, rfl⟩,
      pcAdvanced_of_pc_eq rfl (by decide)⟩
  · exact (outputPortShowsThePrnThatCommits p s _).mpr ⟨hrst, a, b, i, hfetch, ha, rfl⟩

/-! ### HLT -/

/-- The fault record of a running core is 0 (R32). -/
theorem State.Inv.record_eq_zero {s : State} (hs : s.Inv) (hrun : s.halted = false) :
    s.faultPc = 0 ∧ s.faultSpace = 0 ∧ s.faultValue = 0 := by
  have hst : s.status = .running := hs.status.mpr hrun
  have hrec := hs.record
  rw [hst] at hrec
  exact ⟨hs.noFaultPc (.inl hst), hrec⟩

/-- The step of a window that holds HLT, whatever the two bytes after the opcode are. -/
theorem step_of_fetches_hlt {s : State} {a b : Byte} (h : s.Fetches 0x01 a b) : step s = .next s.halt :=
  State.Fetches.step_eq_exec (m := .hlt) h

/-- A running core whose window reaches past memory faults with address MEM_SIZE, whatever the window holds (R91). -/
theorem step_of_not_fetchable {s : State} (hrun : s.halted = false) (h : ¬ s.fetchable) :
    step s = .next (s.faulted .faultOutOfRange 0 (BitVec.ofNat 9 memSize)) := by
  rw [step_of_running hrun, fetchDecode_of_not_fetchable_eq_memSize h]
  rfl

/-- Settles O3: HLT writes halted and status alone, a halted core stays, and a window that reaches past memory faults. -/
theorem hltHaltsAtItsOwnAddress : Obligations.HltHaltsAtItsOwnAddress := by
  refine ⟨decode_opcodeMap .hlt, fun s => ?_, fun s hrun hpc => ?_⟩
  · exact ⟨s.halt, rfl, rfl, step_of_halted s.halt_halted, State.Inv.record_eq_zero, fun _ _ => step_of_fetches_hlt⟩
  · have hout : ¬ s.fetchable := by unfold State.fetchable; omega
    exact step_of_not_fetchable hrun hout

end Sys2Proof.Machine
end

section
/-!
The stack (spec/42_stack.md R120 to R123): the answers of PUSH and POP on both sides of the range check, and what a POP
or a RET finds after one byte has been pushed.
-/

namespace Sys2Proof.Machine

/-! ### Pushing and popping one byte -/

theorem pushByte_of_lt {s : State} (h : (s.sp - 1).toNat < memSize) (v : State → Byte) :
    pushByte s v =
      .ok ((s.setSp (s.sp - 1)).setMem (s.mem.write (s.sp - 1).toNat (v (s.setSp (s.sp - 1))))) := by
  rcases pushByte_cases s v with ⟨-, hp⟩ | ⟨hge, -⟩
  · exact hp
  · omega

theorem pushByte_of_ge {s : State} (h : memSize ≤ (s.sp - 1).toNat) (v : State → Byte) :
    pushByte s v = .error (.outOfRangeMemory (s.sp - 1).toNat) := by
  rcases pushByte_cases s v with ⟨hlt, -⟩ | ⟨-, hp⟩
  · omega
  · exact hp

theorem popRead_of_lt {s : State} (h : s.sp.toNat < memSize) : popRead s = .ok (s.mem.read s.sp.toNat) :=
  memRead_of_lt h

theorem popRead_of_ge {s : State} (h : memSize ≤ s.sp.toNat) : popRead s = .error (.outOfRangeMemory s.sp.toNat) :=
  memRead_of_ge h

@[simp] theorem popAdjust_sp (s : State) : (popAdjust s).sp = s.sp + 1 := State.sp_setSp ..

theorem toNat_sub_one (x : Byte) : (x - 1).toNat = (x.toNat + 255) % 256 := by
  rw [BitVec.toNat_sub, Nat.add_comm]
  rfl

/-! ### PUSH -/

/-- PUSH when the decremented SP is outside memory (R120). -/
theorem exec_push_of_ge {s : State} {a : Byte} {i : RegIdx} (ha : a.toNat = i.val)
    (h : memSize ≤ (s.sp - 1).toNat) :
    exec (.push a) s = .next (s.enterFault (.outOfRangeMemory (s.sp - 1).toNat)) := by
  rw [exec_push, execPush, regIndex_of_eq ha]
  simp only [bind, Except.bind, pushByte_of_ge h]
  rfl

/-- Settles O4, by the two sides of the range check. -/
theorem pushStoresBelowTheStackPointer : Obligations.PushStoresBelowTheStackPointer := by
  intro a i s ha
  refine ⟨decode_opcodeMap .push a, fun hlt => ?_, exec_push_of_ge ha⟩
  obtain ⟨t, hexec, hsp, hread, hconf, hadv⟩ := exec_push_of_lt ha hlt
  exact ⟨t, hexec, by rw [hsp, toNat_sub_one], hread, hconf, hadv⟩

/-! ### POP -/

/-- POP when SP is inside memory (R121). -/
theorem exec_pop_of_lt {s : State} {a : Byte} {i : RegIdx} (ha : a.toNat = i.val) (h : s.sp.toNat < memSize) :
    exec (.pop a) s = .next ((popAdjust (s.setReg i (s.mem.read s.sp.toNat))).advance 2) := by
  rw [exec_pop, execPop, regIndex_of_eq ha, popRead_of_lt h]
  rfl

/-- POP when SP is outside memory (R121). -/
theorem exec_pop_of_ge {s : State} {a : Byte} {i : RegIdx} (ha : a.toNat = i.val) (h : memSize ≤ s.sp.toNat) :
    exec (.pop a) s = .next (s.enterFault (.outOfRangeMemory s.sp.toNat)) := by
  rw [exec_pop, execPop, regIndex_of_eq ha, popRead_of_ge h]
  rfl

section
variable (s : State) (i : RegIdx) (v : Byte)

/-- A POP of another register than SP leaves the popped byte there. -/
theorem popAdjust_setReg_reg_same (hi : i ≠ spIdx) : (popAdjust (s.setReg i v)).reg i = v := by
  rw [popAdjust_reg, if_neg hi, State.reg_setReg_same]

/-- A POP of another register than SP increments the SP it began with. -/
theorem popAdjust_setReg_sp (hi : i ≠ spIdx) : (popAdjust (s.setReg i v)).sp = s.sp + 1 := by
  rw [popAdjust_sp, State.sp_setReg, if_neg hi.symm]

/-- A POP of SP increments the popped byte (D5). -/
theorem popAdjust_setReg_spIdx_sp : (popAdjust (s.setReg spIdx v)).sp = v + 1 := by
  rw [popAdjust_sp, State.sp_setReg, if_pos rfl]

/-- After a pop that commits, only the destination, SP and the PC have changed. -/
theorem confined_pop : Confined [i, 7] [] s ((popAdjust (s.setReg i v)).advance 2) where
  regs k hk := by
    obtain ⟨hi, hsp⟩ : k ≠ i ∧ k ≠ spIdx := by simpa using hk
    rw [State.advance_reg, popAdjust_reg, if_neg hsp, State.reg_setReg, if_neg hi]
  mem _ _ := rfl
  fl := rfl
  output := rfl
  run := ⟨rfl, rfl, rfl, rfl, rfl⟩

end

/-- Settles O5, by the two sides of the range check. -/
theorem popLoadsFromTheStackPointer : Obligations.PopLoadsFromTheStackPointer := by
  intro a i s ha
  refine ⟨decode_opcodeMap .pop a, fun hlt => ?_, exec_pop_of_ge ha⟩
  refine ⟨_, exec_pop_of_lt ha hlt, fun hi => ⟨?_, ?_⟩, ?_, confined_pop s i _, pcAdvanced_of_pc_eq rfl (by decide)⟩
  · exact popAdjust_setReg_reg_same s i _ hi
  · rw [State.advance_sp, popAdjust_setReg_sp s i _ hi]
    exact BitVec.toNat_add ..
  · rintro rfl
    rw [State.advance_sp, popAdjust_setReg_spIdx_sp]
    exact BitVec.toNat_add ..

/-! ### CALL and RET, as the other two users of the stack -/

/-- CALL when the decremented SP is inside memory (R130). -/
theorem exec_call_of_lt {s : State} {a : Byte} {i : RegIdx} (ha : a.toNat = i.val)
    (h : (s.sp - 1).toNat < memSize) :
    exec (.call a) s =
      .next (((s.setSp (s.sp - 1)).setMem (s.mem.write (s.sp - 1).toNat (s.pc + 2))).setPc
        ((s.setSp (s.sp - 1)).reg i)) := by
  rw [exec_call, execCall, regIndex_of_eq ha]
  simp only [bind, Except.bind, pushByte_of_lt h]
  rfl

/-- RET when SP is inside memory (R131). -/
theorem exec_ret_of_lt {s : State} (h : s.sp.toNat < memSize) :
    exec .ret s = .next (popAdjust (s.setPc (s.mem.read s.sp.toNat))) := by
  rw [exec_ret, execRet, popRead_of_lt h]
  rfl

/-! ### A pop after a push -/

/-- `t` is a state after `s` in which `v` is the newest entry of the stack, one below what `s` had. -/
structure Pushed (s t : State) (v : Byte) : Prop where
  inMemory : t.sp.toNat < memSize
  sp : t.sp = s.sp - 1
  read : t.mem.read t.sp.toNat = v

section
variable {s t : State} {v : Byte} (h : Pushed s t v)
include h

theorem Pushed.sp_add_one : t.sp + 1 = s.sp := by
  rw [h.sp, BitVec.sub_add_cancel]

/-- POP takes the newest entry into its register, whichever instruction pushed it (R122). -/
theorem Pushed.exec_pop {b : Byte} {j : RegIdx} (hb : b.toNat = j.val) (hj : j ≠ 7) :
    ∃ u, exec (.pop b) t = .next u ∧ u.reg j = v ∧ u.sp = s.sp ∧ u.mem = t.mem := by
  refine ⟨_, exec_pop_of_lt hb h.inMemory, ?_, ?_, rfl⟩
  · exact (popAdjust_setReg_reg_same t j _ hj).trans h.read
  · exact (popAdjust_setReg_sp t j _ hj).trans h.sp_add_one

/-- RET jumps to the newest entry, whichever instruction pushed it (R122). -/
theorem Pushed.exec_ret : ∃ u, exec .ret t = .next u ∧ u.pc = v ∧ u.sp = s.sp :=
  ⟨_, exec_ret_of_lt h.inMemory, h.read, (popAdjust_sp _).trans h.sp_add_one⟩

end

section
variable {s : State} (hlo : 1 ≤ s.sp.toNat) (hhi : s.sp.toNat ≤ memSize)
include hlo

/-- An SP of at least 1 does not wrap when it is decremented. -/
theorem sp_sub_one_toNat : (s.sp - 1).toNat = s.sp.toNat - 1 := by
  have := s.sp.isLt
  rw [toNat_sub_one]
  omega

include hhi

/-- With SP in 1..MEM_SIZE a push stores inside memory. -/
theorem sp_sub_one_lt_memSize : (s.sp - 1).toNat < memSize := by
  rw [sp_sub_one_toNat hlo]
  omega

/-- PUSH of another register than SP makes its value the newest entry (R120). -/
theorem exec_push_pushed {a : Byte} {i : RegIdx} (ha : a.toNat = i.val) (hi : i ≠ 7) :
    ∃ t, exec (.push a) s = .next t ∧ Pushed s t (s.reg i) := by
  have hlt := sp_sub_one_lt_memSize hlo hhi
  obtain ⟨t, hexec, hsp, hread, -, -⟩ := exec_push_of_lt ha hlt
  rw [if_neg hi, ← hsp] at hread
  exact ⟨t, hexec, hsp ▸ hlt, hsp, hread⟩

/-- CALL makes the return address the newest entry (R130). -/
theorem exec_call_pushed {a : Byte} {i : RegIdx} (ha : a.toNat = i.val) :
    ∃ t, exec (.call a) s = .next t ∧ Pushed s t (s.pc + 2) := by
  have hlt := sp_sub_one_lt_memSize hlo hhi
  exact ⟨_, exec_call_of_lt ha hlt, hlt, State.sp_setSp .., Memory.read_write_same ..⟩

end

/-- Settles O43: the POP takes the entry the PUSH made and leaves memory as it is. -/
theorem pushThenPopMovesTheValue : Obligations.PushThenPopMovesTheValue := by
  intro a b i j s ha hb hi hj hlo hhi
  obtain ⟨t, hpush, ht⟩ := exec_push_pushed hlo hhi ha hi
  obtain ⟨u, hpop, hreg, hsp, hmem⟩ := ht.exec_pop hb hj
  refine ⟨t, u, hpush, hpop, hreg, hsp, ?_⟩
  rw [hmem, ← sp_sub_one_toNat hlo, ← ht.sp, ht.read]

/-- Settles O45: POP and RET take the newest entry whichever of CALL and PUSH made it. -/
theorem stackEntriesAreUntagged : Obligations.StackEntriesAreUntagged := by
  intro a b i j s ha hb hj hfetch hlo hhi
  constructor
  · obtain ⟨t, hcall, ht⟩ := exec_call_pushed hlo hhi ha
    obtain ⟨u, hpop, hreg, hsp, -⟩ := ht.exec_pop hb hj
    exact ⟨t, u, hcall, hpop, hreg ▸ State.advance_two_pc_toNat hfetch, hsp⟩
  · obtain ⟨t, hpush, ht⟩ := exec_push_pushed hlo hhi hb hj
    obtain ⟨u, hret, hpc, hsp⟩ := ht.exec_ret
    exact ⟨t, u, hpush, hret, hpc, hsp⟩

end Sys2Proof.Machine
end

section
/-!
Control flow (spec/43_control_flow.md R130 to R135): the answers of CALL, RET, JMP, JEQ and JNE, and the conditional
jumps after CMP (spec/46_compare.md R161).
-/

namespace Sys2Proof.Machine

/-! ### The frame of a new PC -/

theorem Confined.refl (s : State) : Confined [] [] s s :=
  ⟨fun _ _ => rfl, fun _ _ => rfl, rfl, rfl, ⟨rfl, rfl, rfl, rfl, rfl⟩⟩

/-- A frame says nothing about the PC, so a jump at the end of an instruction keeps it. -/
theorem Confined.setPc {dst : List RegIdx} {addrs : List Nat} {s t : State} (h : Confined dst addrs s t)
    (p : PcWord) : Confined dst addrs s (t.setPc p) :=
  ⟨h.regs, h.mem, h.fl, h.output, ⟨h.run.halted, h.run.status, h.run.faultPc, h.run.faultSpace, h.run.faultValue⟩⟩

/-! ### CALL -/

/-- CALL when the decremented SP is outside memory (R130). -/
theorem exec_call_of_ge {s : State} {a : Byte} {i : RegIdx} (ha : a.toNat = i.val)
    (h : memSize ≤ (s.sp - 1).toNat) :
    exec (.call a) s = .next (s.enterFault (.outOfRangeMemory (s.sp - 1).toNat)) := by
  rw [exec_call, execCall, regIndex_of_eq ha]
  simp only [bind, Except.bind, pushByte_of_ge h]
  rfl

/-- CALL's frame is that of a push: the two differ in the PC alone. -/
theorem confined_call (s : State) (v : Byte) (p : PcWord) :
    Confined [7] [(s.sp - 1).toNat] s
      (((s.setSp (s.sp - 1)).setMem (s.mem.write (s.sp - 1).toNat v)).setPc p) :=
  (confined_push s v).setPc p

/-- Settles O6, by the two sides of the range check. -/
theorem callPushesTheReturnAddressAndJumps : Obligations.CallPushesTheReturnAddressAndJumps := by
  intro a i s ha
  refine ⟨decode_opcodeMap .call a, fun hlt => ?_, exec_call_of_ge ha⟩
  refine ⟨_, exec_call_of_lt ha hlt, ?_, fun hfetch => ?_, State.reg_setSp .., confined_call s _ _⟩
  · rw [State.setPc_sp, State.setMem_sp, State.sp_setSp, toNat_sub_one]
  · rw [State.setPc_mem, State.setMem_mem, Memory.read_write_same]
    exact State.advance_two_pc_toNat hfetch

/-! ### RET -/

/-- RET when SP is outside memory (R131). -/
theorem exec_ret_of_ge {s : State} (h : memSize ≤ s.sp.toNat) :
    exec .ret s = .next (s.enterFault (.outOfRangeMemory s.sp.toNat)) := by
  rw [exec_ret, execRet, popRead_of_ge h]
  rfl

/-- RET writes SP and the PC alone. -/
theorem confined_ret (s : State) (p : PcWord) : Confined [7] [] s (popAdjust (s.setPc p)) :=
  (confined_setReg_advance s spIdx (s.sp + 1) 0).setPc p

/-- Settles O7, by the two sides of the range check. -/
theorem retJumpsToThePoppedByte : Obligations.RetJumpsToThePoppedByte := by
  refine ⟨decode_opcodeMap .ret, fun s => ⟨fun hlt => ?_, exec_ret_of_ge⟩⟩
  refine ⟨_, exec_ret_of_lt hlt, popAdjust_pc _, ?_, confined_ret s _⟩
  rw [popAdjust_sp, State.setPc_sp]
  exact BitVec.toNat_add ..

/-- A newest entry stays one for every state with the same SP and the same byte there. -/
theorem Pushed.of_same_top {s t u : State} {v : Byte} (h : Pushed s t v) (hsp : u.sp = t.sp)
    (hread : u.mem.read t.sp.toNat = t.mem.read t.sp.toNat) : Pushed s u v where
  inMemory := hsp ▸ h.inMemory
  sp := hsp.trans h.sp
  read := by rw [hsp, hread, h.read]

/-- Settles O44: the return address is still the newest entry when the subroutine ends, and RET jumps to that. -/
theorem callThenRetReturns : Obligations.CallThenRetReturns := by
  intro a i s ha hfetch hlo hhi
  obtain ⟨t, hcall, ht⟩ := exec_call_pushed hlo hhi ha
  refine ⟨t, hcall, fun u husp huread => ?_⟩
  obtain ⟨v, hret, hpc, hsp⟩ := (ht.of_same_top husp huread).exec_ret
  exact ⟨v, hret, hpc ▸ State.advance_two_pc_toNat hfetch, hsp⟩

/-! ### JMP -/

/-- JMP of a byte that selects a register (R132). -/
theorem exec_jmp_of_reg {a : Byte} {i : RegIdx} (ha : a.toNat = i.val) (s : State) :
    exec (.jmp a) s = .next (s.setPc (s.reg i)) := by
  rw [exec_jmp, execJmp, regIndex_of_eq ha]
  rfl

/-- Settles O8: JMP writes the PC alone. -/
theorem jmpSetsThePc : Obligations.JmpSetsThePc := by
  intro a i s ha
  exact ⟨decode_opcodeMap .jmp a, _, exec_jmp_of_reg ha s, rfl, (Confined.refl s).setPc _⟩

/-! ### JEQ and JNE -/

/-- The state after a conditional jump to x[i]: the PC is the register where the condition holds, else it goes on by
the length of the instruction. -/
def State.branch (s : State) (taken : Bool) (i : RegIdx) : State :=
  if taken then s.setPc (s.reg i) else s.advance 2

theorem State.branch_pc_of_taken {s : State} {taken : Bool} (h : taken = true) (i : RegIdx) :
    (s.branch taken i).pc = s.reg i := by
  rw [State.branch, if_pos h, State.setPc_pc]

theorem pcAdvanced_branch_of_not_taken {s : State} {taken : Bool} (h : taken = false) (i : RegIdx) :
    PcAdvanced 2 s (s.branch taken i) := by
  subst h
  exact pcAdvanced_of_pc_eq rfl (by decide)

/-- A conditional jump writes the PC alone, taken or not. -/
theorem confined_branch (s : State) (taken : Bool) (i : RegIdx) : Confined [] [] s (s.branch taken i) := by
  cases taken
  · exact (Confined.refl s).setPc _
  · exact (Confined.refl s).setPc _

/-- JEQ of a byte that selects a register jumps on E (R133). -/
theorem exec_jeq_of_reg {a : Byte} {i : RegIdx} (ha : a.toNat = i.val) (s : State) :
    exec (.jeq a) s = .next (s.branch (flagE s.fl) i) := by
  rw [exec_jeq, execJeq, regIndex_of_eq ha]
  rfl

/-- JNE of a byte that selects a register jumps on the complement of E (R134). -/
theorem exec_jne_of_reg {a : Byte} {i : RegIdx} (ha : a.toNat = i.val) (s : State) :
    exec (.jne a) s = .next (s.branch (!flagE s.fl) i) := by
  rw [exec_jne, execJne, regIndex_of_eq ha]
  cases flagE s.fl <;> rfl

/-- E is the lowest bit of FL, so it is set exactly on an odd FL (R27). -/
theorem flagE_eq_decide (fl : Byte) : flagE fl = decide (fl.toNat % 2 = 1) := Nat.testBit_zero _

theorem flagE_of_odd {fl : Byte} (h : fl.toNat % 2 = 1) : flagE fl = true := by
  rw [flagE_eq_decide, decide_eq_true h]

theorem flagE_of_even {fl : Byte} (h : fl.toNat % 2 = 0) : flagE fl = false := by
  rw [flagE_eq_decide, decide_eq_false (by omega)]

/-- Settles O9: the conditional jump whose condition is E. -/
theorem jeqJumpsWhenEqual : Obligations.JeqJumpsWhenEqual := by
  intro a i s ha
  refine ⟨decode_opcodeMap .jeq a, _, exec_jeq_of_reg ha s, fun hodd => ?_, fun heven => ?_, confined_branch s _ i⟩
  · exact State.branch_pc_of_taken (flagE_of_odd hodd) i
  · exact pcAdvanced_branch_of_not_taken (flagE_of_even heven) i

/-- Settles O10: the conditional jump whose condition is the complement of E. -/
theorem jneJumpsWhenNotEqual : Obligations.JneJumpsWhenNotEqual := by
  intro a i s ha
  refine ⟨decode_opcodeMap .jne a, _, exec_jne_of_reg ha s, fun heven => ?_, fun hodd => ?_, confined_branch s _ i⟩
  · exact State.branch_pc_of_taken (by rw [flagE_of_even heven, Bool.not_false]) i
  · exact pcAdvanced_branch_of_not_taken (by rw [flagE_of_odd hodd, Bool.not_true]) i

/-! ### CMP and a conditional jump -/

/-- CMP of two bytes that select registers (R160). -/
theorem exec_cmp_of_reg {a b : Byte} {i j : RegIdx} (ha : a.toNat = i.val) (hb : b.toNat = j.val) (s : State) :
    exec (.cmp a b) s = .next ((s.setFl (compareFlags (s.reg i) (s.reg j))).advance 3) := by
  rw [exec_cmp, execCmp, regIndex_of_eq ha, regIndex_of_eq hb]
  rfl

/-- CMP sets E exactly for equal operands (R160). -/
theorem flagE_compareFlags (x y : Byte) : flagE (compareFlags x y) = decide (x = y) := by
  unfold compareFlags
  split
  · next heq => rw [decide_eq_true heq]; rfl
  · next hne =>
    rw [decide_eq_false hne]
    split <;> rfl

/-- Settles O46: after CMP, E tells whether the two registers are equal, and no register has changed. -/
theorem compareThenConditionalJump : Obligations.CompareThenConditionalJump := by
  intro a b c i j k s ha hb hc
  have hflag := flagE_compareFlags (s.reg i) (s.reg j)
  refine ⟨_, _, _, exec_cmp_of_reg ha hb s, exec_jeq_of_reg hc _, exec_jne_of_reg hc _, fun heq => ?_, fun hne => ?_⟩
  · rw [decide_eq_true heq] at hflag
    exact ⟨State.branch_pc_of_taken hflag k, pcAdvanced_branch_of_not_taken (congrArg _ hflag) k⟩
  · rw [decide_eq_false hne] at hflag
    exact ⟨pcAdvanced_branch_of_not_taken hflag k, State.branch_pc_of_taken (congrArg _ hflag) k⟩

end Sys2Proof.Machine
end

section
/-!
ADD, SUB, MUL, DIV and MOD (spec/44_alu_arith.md R141 to R145): the two answers of a two-register ALU instruction whose
operand bytes select registers, and the result of each operation as a number.
-/

namespace Sys2Proof.Machine

/-! ### A two-register ALU instruction with valid operands -/

section
variable {f : Byte → Byte → Except Raise Byte} {a b : Byte} {i j : RegIdx} {s : State}
  (ha : a.toNat = i.val) (hb : b.toNat = j.val)
include ha hb

/-- An operation with a result commits it to register `i` (R95, R146). -/
theorem aluRR_of_ok {v : Byte} (hf : f (s.reg i) (s.reg j) = .ok v) :
    aluRR f a b s = .next ((s.setReg i v).advance 3) := by
  rw [aluRR, regIndex_of_eq ha, regIndex_of_eq hb]
  simp only [bind, Except.bind, hf]
  rfl

/-- An operation that raises enters its fault and discards the rest (R98). -/
theorem aluRR_of_error {e : Raise} (hf : f (s.reg i) (s.reg j) = .error e) :
    aluRR f a b s = .next (s.enterFault e) := by
  rw [aluRR, regIndex_of_eq ha, regIndex_of_eq hb]
  simp only [bind, Except.bind, hf]
  rfl

/-- What the committed state holds: the result in register `i`, the frame, and the default advance (R94, R96). -/
theorem aluRR_writes_of_ok {v : Byte} (hf : f (s.reg i) (s.reg j) = .ok v) :
    ∃ t, aluRR f a b s = .next t ∧ t.reg i = v ∧ Confined [i] [] s t ∧ PcAdvanced 3 s t :=
  ⟨_, aluRR_of_ok ha hb hf, State.reg_setReg_same s i v, confined_setReg_advance s i v 3,
    pcAdvanced_of_pc_eq rfl le_rfl⟩

end

/-! ### The operations on numbers -/

theorem aluAdd_toNat (x y : Byte) : (aluAdd x y).toNat = (x.toNat + y.toNat) % 256 := BitVec.toNat_add x y

/-- The byte of x - y is the integer difference brought into 0..255 (R142). -/
theorem aluSub_toNat (x y : Byte) : ((aluSub x y).toNat : Int) = ((x.toNat : Int) - y.toNat) % 256 := by
  have hsub : (aluSub x y).toNat = (256 - y.toNat + x.toNat) % 256 := BitVec.toNat_sub x y
  have hy : y.toNat < 256 := y.isLt
  omega

theorem aluMul_toNat (x y : Byte) : (aluMul x y).toNat = x.toNat * y.toNat % 256 := BitVec.toNat_mul x y

theorem aluDiv_of_ne_zero {y : Byte} (hy : y ≠ 0) (x : Byte) : aluDiv x y = .ok (x / y) := if_neg hy

/-- A divisor of 0 raises, whatever the dividend is (R144). -/
theorem aluDiv_of_eq_zero {y : Byte} (hy : y = 0) (x : Byte) : aluDiv x y = .error .divideByZero := if_pos hy

theorem aluMod_of_ne_zero {y : Byte} (hy : y ≠ 0) (x : Byte) : aluMod x y = .ok (x % y) := if_neg hy

/-- A divisor of 0 raises, whatever the dividend is (R145). -/
theorem aluMod_of_eq_zero {y : Byte} (hy : y = 0) (x : Byte) : aluMod x y = .error .moduloByZero := if_pos hy

/-- The remainder by the formula of R145. -/
theorem toNat_mod_eq_sub (x y : Byte) : (x % y).toNat = x.toNat - y.toNat * (x.toNat / y.toNat) :=
  (BitVec.toNat_umod).trans (Nat.mod_def x.toNat y.toNat)

/-! ### ADD, SUB and MUL -/

/-- Settles O11: ADD always has a result, the sum modulo 256. -/
theorem addWritesTheSumModulo256 : Obligations.AddWritesTheSumModulo256 := by
  intro a b i j s ha hb
  obtain ⟨t, hexec, hreg, hframe⟩ := aluRR_writes_of_ok (f := fun x y => .ok (aluAdd x y)) (s := s) ha hb rfl
  exact ⟨decode_opcodeMap .add a b, t, hexec, hreg ▸ aluAdd_toNat _ _, hframe⟩

/-- Settles O12: SUB always has a result, the integer difference modulo 256. -/
theorem subWritesTheDifferenceModulo256 : Obligations.SubWritesTheDifferenceModulo256 := by
  intro a b i j s ha hb
  obtain ⟨t, hexec, hreg, hframe⟩ := aluRR_writes_of_ok (f := fun x y => .ok (aluSub x y)) (s := s) ha hb rfl
  exact ⟨decode_opcodeMap .sub a b, t, hexec, hreg ▸ aluSub_toNat _ _, hframe⟩

/-- Settles O13: MUL always has a result, the product modulo 256. -/
theorem mulWritesTheLowByteOfTheProduct : Obligations.MulWritesTheLowByteOfTheProduct := by
  intro a b i j s ha hb
  obtain ⟨t, hexec, hreg, hframe⟩ := aluRR_writes_of_ok (f := fun x y => .ok (aluMul x y)) (s := s) ha hb rfl
  exact ⟨decode_opcodeMap .mul a b, t, hexec, hreg ▸ aluMul_toNat _ _, hframe⟩

/-! ### DIV and MOD -/

/-- Settles O14, by the two sides of the divisor check. -/
theorem divWritesTheQuotientOrFaults : Obligations.DivWritesTheQuotientOrFaults := by
  intro a b i j s ha hb
  refine ⟨decode_opcodeMap .div a b, fun hne => ?_, fun hzero => ?_⟩
  · obtain ⟨t, hexec, hreg, hframe⟩ := aluRR_writes_of_ok ha hb (aluDiv_of_ne_zero hne (s.reg i))
    exact ⟨t, hexec, hreg ▸ BitVec.toNat_udiv, hframe⟩
  · exact aluRR_of_error ha hb (aluDiv_of_eq_zero hzero (s.reg i))

/-- Settles O15, by the two sides of the divisor check. -/
theorem modWritesTheRemainderOrFaults : Obligations.ModWritesTheRemainderOrFaults := by
  intro a b i j s ha hb
  refine ⟨decode_opcodeMap .mod a b, fun hne => ?_, fun hzero => ?_⟩
  · obtain ⟨t, hexec, hreg, hframe⟩ := aluRR_writes_of_ok ha hb (aluMod_of_ne_zero hne (s.reg i))
    exact ⟨t, hexec, hreg ▸ toNat_mod_eq_sub _ _, hframe⟩
  · exact aluRR_of_error ha hb (aluMod_of_eq_zero hzero (s.reg i))

end Sys2Proof.Machine
end

section
/-!
AND, OR, XOR, NOT, SHL and SHR (spec/45_alu_logic.md R150 to R155): the answer of an ALU instruction that cannot fault,
and the result of each operation by its bits or as a number.
-/

namespace Sys2Proof.Machine

/-! ### An ALU instruction that cannot fault -/

section
variable {a : Byte} {i : RegIdx} (ha : a.toNat = i.val)
include ha

/-- A two-register operation without a fault always commits its result, and only that (R94, R96). -/
theorem aluRR_writes {b : Byte} {j : RegIdx} (hb : b.toNat = j.val) (v : Byte → Byte → Byte) (s : State) :
    ∃ t, aluRR (fun x y => .ok (v x y)) a b s = .next t ∧ t.reg i = v (s.reg i) (s.reg j) ∧
      Confined [i] [] s t ∧ PcAdvanced 3 s t :=
  aluRR_writes_of_ok ha hb rfl

/-- A one-register operation with a valid operand (R95). -/
theorem aluR_of_reg (f : Byte → Byte) (s : State) :
    aluR f a s = .next ((s.setReg i (f (s.reg i))).advance 2) := by
  rw [aluR, regIndex_of_eq ha]
  rfl

end

/-! ### The operations -/

theorem aluAnd_getLsbD (x y : Byte) (k : Nat) : (aluAnd x y).getLsbD k = (x.getLsbD k && y.getLsbD k) :=
  BitVec.getLsbD_and

theorem aluOr_getLsbD (x y : Byte) (k : Nat) : (aluOr x y).getLsbD k = (x.getLsbD k || y.getLsbD k) :=
  BitVec.getLsbD_or

theorem aluXor_getLsbD (x y : Byte) (k : Nat) : (aluXor x y).getLsbD k = (x.getLsbD k != y.getLsbD k) :=
  BitVec.getLsbD_xor

theorem aluNot_toNat (x : Byte) : (aluNot x).toNat = 255 - x.toNat := BitVec.toNat_not

/-- This hardware's shift left, by whether the distance reaches 8 (R7, R154, D8). -/
theorem aluShl_shiftGe8_toNat (x n : Byte) :
    (aluShl shiftGe8 x n).toNat = if 8 ≤ n.toNat then 0 else x.toNat * 2 ^ n.toNat % 256 := by
  split
  · next hge => exact congrArg BitVec.toNat (aluShl_of_none (shiftAmount_zero_of_ge hge) x)
  · next hlt => exact aluShl_toNat_of_some (shiftAmount_zero_of_lt (Nat.not_le.mp hlt)) x

/-- This hardware's shift right, by whether the distance reaches 8 (R7, R155, D8). -/
theorem aluShr_shiftGe8_toNat (x n : Byte) :
    (aluShr shiftGe8 x n).toNat = if 8 ≤ n.toNat then 0 else x.toNat / 2 ^ n.toNat := by
  split
  · next hge => exact congrArg BitVec.toNat (aluShr_of_none (shiftAmount_zero_of_ge hge) x)
  · next hlt => exact aluShr_toNat_of_some (shiftAmount_zero_of_lt (Nat.not_le.mp hlt)) x

/-! ### AND, OR and XOR -/

/-- Settles O16: AND always has a result, whose bits are the conjunctions of the operands' bits. -/
theorem andIsBitwise : Obligations.AndIsBitwise := by
  intro a b i j s ha hb
  obtain ⟨t, hexec, hreg, hframe⟩ := aluRR_writes ha hb aluAnd s
  exact ⟨decode_opcodeMap .and a b, t, hexec, fun k _ => hreg ▸ aluAnd_getLsbD _ _ k, hframe⟩

/-- Settles O17: OR always has a result, whose bits are the disjunctions of the operands' bits. -/
theorem orIsBitwise : Obligations.OrIsBitwise := by
  intro a b i j s ha hb
  obtain ⟨t, hexec, hreg, hframe⟩ := aluRR_writes ha hb aluOr s
  exact ⟨decode_opcodeMap .or a b, t, hexec, fun k _ => hreg ▸ aluOr_getLsbD _ _ k, hframe⟩

/-- Settles O18: XOR always has a result, whose bits tell where the operands' bits differ. -/
theorem xorIsBitwise : Obligations.XorIsBitwise := by
  intro a b i j s ha hb
  obtain ⟨t, hexec, hreg, hframe⟩ := aluRR_writes ha hb aluXor s
  exact ⟨decode_opcodeMap .xor a b, t, hexec, fun k _ => hreg ▸ aluXor_getLsbD _ _ k, hframe⟩

/-! ### NOT -/

/-- Settles O19: NOT writes the complement of its register and advances by its length, whatever the third byte is. -/
theorem notComplementsTheByte : Obligations.NotComplementsTheByte := by
  intro a i s ha
  have hreg : (s.setReg i (aluNot (s.reg i))).reg i = aluNot (s.reg i) := State.reg_setReg_same s i _
  exact ⟨fun b => decode_opcodeMap .not a b, _, aluR_of_reg ha aluNot s,
    (congrArg BitVec.toNat hreg).trans (aluNot_toNat _), confined_setReg_advance s i _ 2,
    pcAdvanced_of_pc_eq rfl (by decide)⟩

/-! ### SHL and SHR -/

/-- Settles O20: SHL always has a result, by the parameter's two cases. -/
theorem shlShiftsLeftAndGivesZeroFromEightOn : Obligations.ShlShiftsLeftAndGivesZeroFromEightOn := by
  intro a b i j s ha hb
  obtain ⟨t, hexec, hreg, hframe⟩ := aluRR_writes ha hb (aluShl shiftGe8) s
  exact ⟨decode_opcodeMap .shl a b, t, hexec, hreg ▸ aluShl_shiftGe8_toNat _ _, hframe⟩

/-- Settles O21: SHR always has a result, by the parameter's two cases. -/
theorem shrShiftsRightAndGivesZeroFromEightOn : Obligations.ShrShiftsRightAndGivesZeroFromEightOn := by
  intro a b i j s ha hb
  obtain ⟨t, hexec, hreg, hframe⟩ := aluRR_writes ha hb (aluShr shiftGe8) s
  exact ⟨decode_opcodeMap .shr a b, t, hexec, hreg ▸ aluShr_shiftGe8_toNat _ _, hframe⟩

end Sys2Proof.Machine
end

section
/-!
CMP (spec/46_compare.md R160): the flags it writes by the numbers it compares, and its frame.
-/

namespace Sys2Proof.Machine

/-- The comparison of CMP orders the operands as the numbers 0..255 (R29, R160). -/
theorem compareFlags_eq_toNat (x y : Byte) :
    compareFlags x y = if x.toNat = y.toNat then 0b00000001
      else if x.toNat > y.toNat then 0b00000010 else 0b00000100 :=
  if_congr BitVec.toNat_inj.symm rfl (if_congr BitVec.lt_def rfl rfl)

/-- Settles O23: CMP writes FL alone, by the order of the two numbers, and advances by its length. -/
theorem cmpWritesTheFlags : Obligations.CmpWritesTheFlags := by
  intro a b i j s ha hb
  have hrun : RunKept s ((s.setFl (compareFlags (s.reg i) (s.reg j))).advance 3) := ⟨rfl, rfl, rfl, rfl, rfl⟩
  exact ⟨decode_opcodeMap .cmp a b, _, exec_cmp_of_reg ha hb s, compareFlags_eq_toNat (s.reg i) (s.reg j),
    fun _ _ => rfl, fun _ _ => rfl, rfl, hrun, pcAdvanced_of_pc_eq rfl le_rfl⟩

end Sys2Proof.Machine
end

section
/-!
Fault priority (spec/60_exceptions.md R172, R177, R178): each row of the priority order, once the rows before it have
passed, is the fault entry of the step.
-/

namespace Sys2Proof.Machine

/-! ### The register rows -/

/-- The first operand byte of every format but N is a register operand (R71, R93). -/
theorem regOperands_instr_of_not_mem_opcodesN {m : Mnemonic} (h : opcodeMap m ∉ opcodesN) (a b : Byte) :
    ∃ rest, (m.instr a b).regOperands = a :: rest := by
  cases m with
  | hlt | ret => exact absurd (by decide) h
  | push | pop | prn | call | jmp | jeq | jne | not | ldi | add | sub | mul | div | mod | cmp | and | or | xor | shl
  | shr => exact ⟨_, rfl⟩

/-- Both operand bytes of format RR are register operands (R71, R93). -/
theorem regOperands_instr_of_mem_opcodesRR {m : Mnemonic} (h : opcodeMap m ∈ opcodesRR) (a b : Byte) :
    (m.instr a b).regOperands = [a, b] := by
  cases m with
  | hlt | ret | push | pop | prn | call | jmp | jeq | jne | not | ldi => exact absurd h (by decide)
  | add | sub | mul | div | mod | cmp | and | or | xor | shl | shr => rfl

theorem not_mem_opcodesN_of_mem_opcodesRR {op : Byte} (h : op ∈ opcodesRR) : op ∉ opcodesN := by
  have hall : ∀ x ∈ opcodesRR, x ∉ opcodesN := by decide
  exact hall op h

section
variable {s : State} {op a b : Byte} (h : s.Fetches op a b)
include h

/-- A first register operand that selects no register is reported before anything else of the instruction (R93). -/
theorem State.Fetches.step_of_first_operand_ge (hop : op ∈ opcodes) (hN : op ∉ opcodesN) (ha : 8 ≤ a.toNat) :
    step s = .next (s.faulted .faultOutOfRange 1 (a.setWidth 9)) := by
  obtain ⟨m, rfl⟩ := mem_opcodes_iff.mp hop
  obtain ⟨rest, hregs⟩ := regOperands_instr_of_not_mem_opcodesN hN a b
  have hfirst : FirstNonRegister (m.instr a b).regOperands a := by
    rw [hregs]
    exact firstNonRegister_cons_iff.mpr (.inl ⟨ha, rfl⟩)
  rw [h.step_eq_exec, registerOperandsAreCheckedInOrder _ _ s hfirst]

/-- A second register operand that selects no register is reported when the row of the first has passed (R93). -/
theorem State.Fetches.step_of_second_operand_ge (hop : op ∈ opcodes) (ha : ¬ (op ∉ opcodesN ∧ 8 ≤ a.toNat))
    (hRR : op ∈ opcodesRR) (hb : 8 ≤ b.toNat) : step s = .next (s.faulted .faultOutOfRange 1 (b.setWidth 9)) := by
  obtain ⟨m, rfl⟩ := mem_opcodes_iff.mp hop
  have hlt : a.toNat < 8 := Nat.not_le.mp fun hge => ha ⟨not_mem_opcodesN_of_mem_opcodesRR hRR, hge⟩
  have hfirst : FirstNonRegister (m.instr a b).regOperands b := by
    rw [regOperands_instr_of_mem_opcodesRR hRR]
    exact firstNonRegister_cons_iff.mpr (.inr ⟨hlt, firstNonRegister_cons_iff.mpr (.inl ⟨hb, rfl⟩)⟩)
  rw [h.step_eq_exec, registerOperandsAreCheckedInOrder _ _ s hfirst]

end

/-! ### The rows of the instruction's own fault -/

/-- The register of the low three bits of an operand byte, whose value `priorityFault` takes as the divisor. -/
def lowReg (x : Byte) : RegIdx := ⟨x.toNat % 8, Nat.mod_lt _ (by decide)⟩

/-- Once the row of a register operand has passed, the byte selects the register of its low three bits (R24). -/
theorem toNat_eq_lowReg {p : Prop} {x : Byte} (h : ¬ (p ∧ 8 ≤ x.toNat)) (hp : p) : x.toNat = (lowReg x).val :=
  (Nat.mod_eq_of_lt (Nat.not_le.mp fun hge => h ⟨hp, hge⟩)).symm

/-- The fault entry for an address held in a byte (R172). -/
theorem State.enterFault_outOfRangeMemory (s : State) (x : Byte) :
    s.enterFault (.outOfRangeMemory x.toNat) = s.faulted .faultOutOfRange 0 (x.setWidth 9) := by
  rw [State.enterFault_eq_faulted, Raise.value, BitVec.ofNat_toNat]
  rfl

section
variable {s : State} {op a b : Byte} (h : s.Fetches op a b) (ha : ¬ (op ∉ opcodesN ∧ 8 ≤ a.toNat))
include h ha

/-- DIV by a register that holds 0 (R144). -/
theorem State.Fetches.step_div_of_zero (hb : ¬ (op ∈ opcodesRR ∧ 8 ≤ b.toNat)) (hop : op = 0xA3)
    (hzero : s.reg (lowReg b) = 0) : step s = .next (s.faulted .faultDivideByZero 0 0) := by
  subst hop
  have hstep : step s = exec (.div a b) s := State.Fetches.step_eq_exec (m := .div) h
  exact hstep.trans (aluRR_of_error (toNat_eq_lowReg ha (by decide)) (toNat_eq_lowReg hb (by decide))
    (aluDiv_of_eq_zero hzero _))

/-- MOD by a register that holds 0 (R145). -/
theorem State.Fetches.step_mod_of_zero (hb : ¬ (op ∈ opcodesRR ∧ 8 ≤ b.toNat)) (hop : op = 0xA4)
    (hzero : s.reg (lowReg b) = 0) : step s = .next (s.faulted .faultModuloByZero 0 0) := by
  subst hop
  have hstep : step s = exec (.mod a b) s := State.Fetches.step_eq_exec (m := .mod) h
  exact hstep.trans (aluRR_of_error (toNat_eq_lowReg ha (by decide)) (toNat_eq_lowReg hb (by decide))
    (aluMod_of_eq_zero hzero _))

/-- PUSH and CALL with the decremented SP outside memory (R120, R130). -/
theorem State.Fetches.step_push_call_of_ge (hop : op = 0x45 ∨ op = 0x50) (hge : memSize ≤ (s.sp - 1).toNat) :
    step s = .next (s.faulted .faultOutOfRange 0 ((s.sp - 1).setWidth 9)) := by
  rw [← State.enterFault_outOfRangeMemory]
  rcases hop with rfl | rfl
  · have hstep : step s = exec (.push a) s := State.Fetches.step_eq_exec (m := .push) h
    exact hstep.trans (exec_push_of_ge (toNat_eq_lowReg ha (by decide)) hge)
  · have hstep : step s = exec (.call a) s := State.Fetches.step_eq_exec (m := .call) h
    exact hstep.trans (exec_call_of_ge (toNat_eq_lowReg ha (by decide)) hge)

/-- POP and RET with SP outside memory (R121, R131). -/
theorem State.Fetches.step_pop_ret_of_ge (hop : op = 0x46 ∨ op = 0x11) (hge : memSize ≤ s.sp.toNat) :
    step s = .next (s.faulted .faultOutOfRange 0 (s.sp.setWidth 9)) := by
  rw [← State.enterFault_outOfRangeMemory]
  rcases hop with rfl | rfl
  · have hstep : step s = exec (.pop a) s := State.Fetches.step_eq_exec (m := .pop) h
    exact hstep.trans (exec_pop_of_ge (toNat_eq_lowReg ha (by decide)) hge)
  · have hstep : step s = exec .ret s := State.Fetches.step_eq_exec (m := .ret) h
    exact hstep.trans (exec_ret_of_ge hge)

end

/-! ### The whole order -/

/-- The first row of the priority order that has a fault is the fault entry of the step: one case for each row. -/
theorem step_of_priorityFault_eq_some {s : State} {status : Status} {space : BitVec 1} {value : BitVec 9}
    (hrun : s.halted = false) (h : priorityFault s = some (status, space, value)) :
    step s = .next (s.faulted status space value) := by
  obtain ⟨-, hmissing⟩ := everyStepFetchesThreeBytes s hrun
  simp only [priorityFault] at h
  split_ifs at h with hpc hpc1 hpc2 hop ha hb hdiv hmod hpush hpop <;> cases h
  · rw [hmissing (by omega), if_pos hpc]
  · rw [hmissing (by omega), if_neg hpc, if_pos hpc1]
  · rw [hmissing hpc2, if_neg hpc, if_neg hpc1]
  all_goals have hfetch : s.Fetches _ _ _ := ⟨hrun, Nat.not_le.mp hpc2, rfl, rfl, rfl⟩
  · exact hfetch.step_of_first_operand_ge hop ha.1 ha.2
  · exact hfetch.step_of_second_operand_ge hop ha hb.1 hb.2
  · exact hfetch.step_div_of_zero ha hb hdiv.1 hdiv.2
  · exact hfetch.step_mod_of_zero ha hb hmod.1 hmod.2
  · exact hfetch.step_push_call_of_ge ha hpush.1 hpush.2
  · exact hfetch.step_pop_ret_of_ge ha hpop.1 hpop.2
  · exact hfetch.step_of_not_mem_opcodes hop

/-- Settles O33: a fault of the priority order is the fault entry of the step; with none the step commits, and halts
with the status HALT if it halts. -/
theorem stepReportsTheFirstFault : Obligations.StepReportsTheFirstFault := by
  intro s hrun
  cases hfault : priorityFault s with
  | some fault => exact step_of_priorityFault_eq_some hrun hfault
  | none =>
    obtain ⟨i, t, hdecode, hexec, hstep, hkept, hhlt⟩ := stepWithoutAFaultCommits s hrun hfault
    refine ⟨i, t, hdecode, hexec, hstep, ?_⟩
    by_cases hi : i = .hlt
    · exact .inr (by rw [hhlt hi])
    · exact .inl ((hkept hi).halted.trans hrun)

end Sys2Proof.Machine
end

section
/-!
The reset edge (spec/70_reset_and_hazards.md R190).
-/

namespace Sys2Proof.Machine

/-- The load port changes one byte at most, at load_addr, and only with load_we = 1 (R42). -/
theorem loadPort_read_ne {p : Pins} {m : Memory} {x : Nat} (h : (loadPort p m).read x ≠ m.read x) :
    p.loadWe = true ∧ x = p.loadAddr.toNat := by
  unfold loadPort pokeCell at h
  split_ifs at h with hwe hlt
  · exact ⟨hwe, Memory.eq_of_read_write_ne h⟩
  · exact absurd rfl h
  · exact absurd rfl h

/-- Settles O54: all but memory is as in the reset state; memory is cleared on the first edge and the load port's on a
later one. -/
theorem resetEdgeSetsTheResetValues : Obligations.ResetEdgeSetsTheResetValues := by
  intro rstBefore p s hrst
  obtain ⟨hregs, hsp, -⟩ := resetStateHoldsItsValues
  refine ⟨resetEdge rstBefore p s, clockEdge_of_reset hrst rstBefore s, hregs, hsp, rfl, rfl, rfl, rfl, rfl, rfl, rfl,
    rfl, ?_, ?_⟩
  · rintro rfl
    exact Memory.read_nil
  · rintro rfl x hx
    exact loadPort_read_ne hx

end Sys2Proof.Machine
end
